-- ==== Sys2Proof/Word.lean ====
section
/-! DEFINITION. The words the block moves: bytes, 16-bit commands and 32-bit request words (spec R9, R53, R80). -/

namespace Sys2Proof

/-- R9: a byte is an unsigned 8-bit value. -/
abbrev Byte := BitVec 8

/-- R10: a byte sequence, index 0 first. -/
abbrev Bytes := List Byte

/-- R6, R53: a 16-bit command code. -/
abbrev Command := BitVec 16

/-- R80: the 32-bit request word. -/
abbrev RequestWord := BitVec 32

end Sys2Proof
end

