-- ==== Sys2Proof/Config.lean ====
section
/-! DEFINITION. What is fixed for the machine: the constants of R6 and R76, the named parameters of R8 as an
uninterpreted constant, and the environment's free draws of R12. -/

namespace Sys2Proof

/-- The map of R8 and R78 from the three flags the source does not place to a bit of the master-status byte.
`is_master` is not here: R78 fixes it at bit 0. -/
structure MsBitMap where
  remoteEnabled      : Fin 8
  hostRegistered     : Fin 8
  otherMasterPresent : Fin 8
  deriving DecidableEq, Repr, Inhabited

/-- R78: the default map. It is a value the map may have, not a fact about the instrument (R238). -/
def MsBitMap.standard : MsBitMap := ⟨1, 2, 3⟩

/-- The open parameters of R8. `deverr` is the instrument-error detector CHECK applies; its code is `DEVCODE_W`
bits wide, where `DEVCODE_W = devcodeWidthPred + 1` is 1 to 16. `tReadMs` is `T_READ`, recorded and read by no
rule (R8, decision D40). -/
structure Params where
  regHostField     : Byte
  devcodeWidthPred : Fin 16
  deverr           : Bytes → Option (BitVec (devcodeWidthPred.val + 1))
  msBitMap         : MsBitMap
  tReadMs          : Nat
  deriving Inhabited

/-- R12, R103: what one `RxByte` call meets. `byte` and `timeout` are the two answers of R12; `reset` is the reset
input asserted while the call waits, and `byteReset b` right after the call has taken `b` (R232); `hang` is a call that
never returns (R242's proviso fails). -/
inductive RxDraw where
  | byte (b : Byte)
  | timeout
  | reset
  | byteReset (b : Byte)
  | hang
  deriving DecidableEq, Repr, Inhabited

/-- R12, R57: what one `TxFrame` call meets. `accepted` is `OK`; `timeout k` is `TIMEOUT(k)`; `reset k` is the reset
input asserted when `k` bytes are out (R232); `hang` is a call that never returns (R242's proviso fails). -/
inductive TxDraw where
  | accepted
  | timeout (k : Nat)
  | reset (k : Nat)
  | hang
  deriving DecidableEq, Repr, Inhabited

/-- A free draw returns: R233 makes a channel that never returns the environment's breach, so only a list of the state
can hold one. -/
def RxDraw.returning : RxDraw → RxDraw
  | .hang => .timeout
  | d => d

/-- As `RxDraw.returning`, for `TxFrame`. -/
def TxDraw.returning : TxDraw → TxDraw
  | .hang => .accepted
  | d => d

namespace Config

/-- R6: the start-of-frame marker. -/
def stx : Byte := 0xBB

/-- R6: the most data bytes of one frame. -/
def maxData : Nat := 255

/-- R6, R76: REG_HOST. -/
def regHost : Command := 0x7FF0

/-- R6, R76: MASTER_SET. -/
def masterSet : Command := 0xFFF1

/-- R6, R76: MASTER_GET. -/
def masterGet : Command := 0x7FF1

/-- R6, R77: the MASTER_SET data byte that assigns. -/
def assignByte : Byte := 0x01

/-- R6, R77: the MASTER_SET data byte that releases; also the reply byte that means success (R175, R185). -/
def releaseByte : Byte := 0x00

/-- R8: the parameters, left open. No proof can see a value of them (log entry 2). -/
opaque params : Params

/-- R12: the free draw of the `n`th port event whose answer no list of the state fixes (log entry 3). -/
opaque freeRx : Nat → RxDraw

/-- R12: the free draw of a `TxFrame` call whose answer no list of the state fixes (log entry 3). -/
opaque freeTx : Nat → TxDraw

end Config

end Sys2Proof
end

