-- ==== Sys2Proof/Syntax.lean ====
section
/-! DEFINITION. The operations and wire commands of spec/opcode_table.json as one inductive, and the two encoded
forms they have: a request with its data lane (R80) and a frame command with its data (R76). -/

namespace Sys2Proof

/-- One constructor per row of spec/opcode_table.json. The first nine are the operations of R81; the six `wire…` are
the FRAME_CMD rows of R76, each meaning the operation that sends it (log entry 1). -/
inductive Instr where
  | config (dev : Byte)
  | reghost (id : Bytes)
  | assign
  | mstatus
  | release
  | send (cmd : Command) (data : Bytes)
  | recv
  | check
  | disconnect
  | wireRegHost (id : Bytes)
  | wireMasterSetAssign
  | wireMasterSetRelease
  | wireMasterGet
  | wireDeviceGet (cmd : Command) (data : Bytes)
  | wireDeviceSet (cmd : Command) (data : Bytes)
  deriving DecidableEq, Repr

/-- An encoded instruction. `request` is R80's request word with the bytes of its data lane. `frameCommand` is the
command field and data of a frame, the encoding the table gives its FRAME_CMD rows (R76, log entry 1). -/
inductive Item where
  | request (word : RequestWord) (lane : Bytes)
  | frameCommand (cmd : Command) (data : Bytes)
  deriving DecidableEq, Repr

end Sys2Proof
end

