-- ==== Sys2Proof/Decode.lean ====
section
/-! DEFINITION. Decoding requests and frame commands (R76, R80 to R83), the encoder written from the same tables, and
the opcode table's masks and patterns, and the bit fields of a command. -/

namespace Sys2Proof

/-- Why an item is no instruction. All but `laneMismatch` are answered `ILLEGAL` (R83; log entry 4 for the last two). -/
inductive DecodeError where
  /-- R83: `OP` is `0x0` or `0xA` to `0xF`. -/
  | reservedOp
  /-- R83: `RSV != 0`. -/
  | reservedBits
  /-- R83: `CMD != 0` for an operation other than SEND. -/
  | unusedCmd
  /-- R83: `LEN != 0` for an operation without operands. -/
  | unusedLen
  /-- R80: the lane does not hold exactly the bytes the word names, which the port cannot deliver. -/
  | laneMismatch
  /-- R77, R76: a MASTER_SET or MASTER_GET frame command with data no row of the table gives it. -/
  | wireData
  /-- R66: frame data over 255 bytes. -/
  | wireLength
  deriving DecidableEq, Repr

/-- R9: `msb(c) = c[15:8]`. -/
def Command.msb (c : Command) : Byte := c.extractLsb' 8 8

/-- R9: `lsb(c) = c[7:0]`. -/
def Command.lsb (c : Command) : Byte := c.extractLsb' 0 8

/-- R53: `command = CMD_MSB * 256 + CMD_LSB`. -/
def commandOfBytes (msb lsb : Byte) : Command := msb ++ lsb

/-- R66, R80: a lane or a frame's data holds at most 255 bytes. -/
def dataFits (data : Bytes) : Bool := data.length ≤ Config.maxData

/-- R76, R135: the three control codes. -/
def isControl (c : Command) : Bool := c = Config.regHost || c = Config.masterSet || c = Config.masterGet

/-- R75: bit 15 of a command, "set" by convention. -/
def setBit (c : Command) : Bool := c.getLsbD 15

/-- R80: `OP`, bits 31:28. -/
def RequestWord.op (w : RequestWord) : BitVec 4 := w.extractLsb' 28 4

/-- R80: `RSV`, bits 27:24. -/
def RequestWord.rsv (w : RequestWord) : BitVec 4 := w.extractLsb' 24 4

/-- R80: `CMD`, bits 23:8. -/
def RequestWord.cmd (w : RequestWord) : Command := w.extractLsb' 8 16

/-- R80: `LEN` / `IMM8`, bits 7:0. -/
def RequestWord.len (w : RequestWord) : Byte := w.extractLsb' 0 8

/-- R80: how many bytes the data lane carries with a word: `LEN` for REGHOST and SEND, none otherwise. -/
def laneLength (w : RequestWord) : Nat :=
  if RequestWord.op w = 0x2 ∨ RequestWord.op w = 0x6 then (RequestWord.len w).toNat else 0

/-- R80: the lane carries exactly the bytes its word names. -/
def laneExact (w : RequestWord) (lane : Bytes) : Bool := lane.length = laneLength w

/-- R83: the word is reserved or malformed. -/
def illegalWord (w : RequestWord) : Option DecodeError :=
  if RequestWord.rsv w ≠ 0 then some .reservedBits
  else match (RequestWord.op w).toNat with
    | 1 | 2 => if RequestWord.cmd w ≠ 0 then some .unusedCmd else none
    | 6 => none
    | 3 | 4 | 5 | 7 | 8 | 9 =>
      if RequestWord.cmd w ≠ 0 then some .unusedCmd
      else if RequestWord.len w ≠ 0 then some .unusedLen else none
    | _ => some .reservedOp

/-- R81, R82: the operation of a legal word with its lane. -/
def operationOf (w : RequestWord) (lane : Bytes) : Option Instr :=
  match (RequestWord.op w).toNat with
  | 1 => some (.config (RequestWord.len w))
  | 2 => some (.reghost lane)
  | 3 => some .assign
  | 4 => some .mstatus
  | 5 => some .release
  | 6 => some (.send (RequestWord.cmd w) lane)
  | 7 => some .recv
  | 8 => some .check
  | 9 => some .disconnect
  | _ => none

/-- R80 to R83: a request, checked first for legality, then for its lane. -/
def decodeRequest (w : RequestWord) (lane : Bytes) : Except DecodeError Instr :=
  match illegalWord w with
  | some e => .error e
  | none =>
    if laneExact w lane then
      match operationOf w lane with
      | some i => .ok i
      | none => .error .reservedOp
    else .error .laneMismatch

/-- R76, R77: a frame command with its data, against the FRAME_CMD rows of the opcode table. -/
def decodeFrameCommand (cmd : Command) (data : Bytes) : Except DecodeError Instr :=
  if !dataFits data then .error .wireLength
  else if cmd = Config.regHost then .ok (.wireRegHost data)
  else if cmd = Config.masterSet then
    if data = [Config.assignByte] then .ok .wireMasterSetAssign
    else if data = [Config.releaseByte] then .ok .wireMasterSetRelease
    else .error .wireData
  else if cmd = Config.masterGet then
    if data = [] then .ok .wireMasterGet else .error .wireData
  else if setBit cmd then .ok (.wireDeviceSet cmd data)
  else .ok (.wireDeviceGet cmd data)

/-- Decoding, total on every item. -/
def decode : Item → Except DecodeError Instr
  | .request w lane => decodeRequest w lane
  | .frameCommand cmd data => decodeFrameCommand cmd data

/-- R80: a request word from its fields, with `RSV = 0`. -/
def requestWord (op : BitVec 4) (cmd : Command) (len : Byte) : RequestWord := op ++ (0#4) ++ cmd ++ len

/-- The `LEN` byte of a data lane or frame (R71, R80). -/
def lenByte (data : Bytes) : Byte := BitVec.ofNat 8 data.length

/-- R76, R82: the encoding of each instruction. -/
def Instr.encode : Instr → Item
  | .config dev => .request (requestWord 0x1 0 dev) []
  | .reghost id => .request (requestWord 0x2 0 (lenByte id)) id
  | .assign => .request (requestWord 0x3 0 0) []
  | .mstatus => .request (requestWord 0x4 0 0) []
  | .release => .request (requestWord 0x5 0 0) []
  | .send cmd data => .request (requestWord 0x6 cmd (lenByte data)) data
  | .recv => .request (requestWord 0x7 0 0) []
  | .check => .request (requestWord 0x8 0 0) []
  | .disconnect => .request (requestWord 0x9 0 0) []
  | .wireRegHost id => .frameCommand Config.regHost id
  | .wireMasterSetAssign => .frameCommand Config.masterSet [Config.assignByte]
  | .wireMasterSetRelease => .frameCommand Config.masterSet [Config.releaseByte]
  | .wireMasterGet => .frameCommand Config.masterGet []
  | .wireDeviceGet cmd data => .frameCommand cmd data
  | .wireDeviceSet cmd data => .frameCommand cmd data

/-- One row of the opcode table's request map: its mnemonic, pattern and mask. -/
structure TableRow where
  mnemonic : String
  pattern  : RequestWord
  mask     : RequestWord
  deriving DecidableEq, Repr

/-- The request rows of spec/opcode_table.json (R82's word patterns). -/
def requestTable : List TableRow :=
  [⟨"CONFIG", 0x10000000, 0xFFFFFF00⟩, ⟨"REGHOST", 0x20000000, 0xFFFFFF00⟩, ⟨"ASSIGN", 0x30000000, 0xFFFFFFFF⟩,
   ⟨"MSTATUS", 0x40000000, 0xFFFFFFFF⟩, ⟨"RELEASE", 0x50000000, 0xFFFFFFFF⟩, ⟨"SEND", 0x60000000, 0xFF000000⟩,
   ⟨"RECV", 0x70000000, 0xFFFFFFFF⟩, ⟨"CHECK", 0x80000000, 0xFFFFFFFF⟩, ⟨"DISCONNECT", 0x90000000, 0xFFFFFFFF⟩]

/-- The table's name of each instruction. -/
def Instr.mnemonic : Instr → String
  | .config _ => "CONFIG"
  | .reghost _ => "REGHOST"
  | .assign => "ASSIGN"
  | .mstatus => "MSTATUS"
  | .release => "RELEASE"
  | .send _ _ => "SEND"
  | .recv => "RECV"
  | .check => "CHECK"
  | .disconnect => "DISCONNECT"
  | .wireRegHost _ => "REG_HOST"
  | .wireMasterSetAssign => "MASTER_SET_ASSIGN"
  | .wireMasterSetRelease => "MASTER_SET_RELEASE"
  | .wireMasterGet => "MASTER_GET"
  | .wireDeviceGet _ _ => "DEVICE_GET"
  | .wireDeviceSet _ _ => "DEVICE_SET"

/-- The item whose bits are `w`, every bit above `nbits` zero: up to 16 bits a frame command, whose only data byte
the table's rows fix is MASTER_SET's (zero here, so the release form); else a request with a lane of zeros (log
entry 5). -/
def tableItem (nbits w : Nat) : Item :=
  if nbits ≤ 16 then
    let cmd : Command := BitVec.ofNat 16 w
    .frameCommand cmd (if cmd = Config.masterSet then [0] else [])
  else
    let word : RequestWord := BitVec.ofNat 32 w
    .request word (List.replicate (laneLength word) 0)

/-- The instruction the decoder reads from a word of the opcode table. -/
def decodeTableWord (nbits w : Nat) : Option Instr :=
  match decode (tableItem nbits w) with
  | .ok i => some i
  | .error _ => none

end Sys2Proof
end

