-- ==== Sys2Proof/Machine/State.lean ====
section
/-! DEFINITION. The block's state: the register file of R20, the ports of R50, R51, R80 and R84 as plain data, the
reset state of R230, and the reasons a step can stop. -/

namespace Sys2Proof.Machine

/-- R22: the four arbitration states. -/
inductive Fsm where
  | disconnected
  | registering
  | registered
  | master
  deriving DecidableEq, Repr

/-- R70: the fields of a frame that a receiver returns. -/
structure Frame where
  device  : Byte
  host    : Byte
  command : Command
  data    : Bytes
  deriving DecidableEq, Repr

/-- R84: one response record. `payload` has `plen` bytes. -/
structure Response where
  status  : Byte
  devcode : BitVec 16
  chkRx   : Byte
  chkCalc : Byte
  warn    : BitVec 4
  fsm     : BitVec 2
  hostV   : Bool
  host    : Byte
  msf     : BitVec 4
  rdev    : Byte
  rhost   : Byte
  rcmd    : Command
  plen    : Byte
  payload : Bytes
  deriving DecidableEq, Repr

/-- One call of a port primitive, as it happened (R12). `tx frame k` is a `TxFrame` call that offered `frame`, of
which the channel took the first `k` bytes. -/
inductive PortEvent where
  | tx (frame : Bytes) (taken : Nat)
  | rx (b : Byte)
  | rxTimeout
  deriving DecidableEq, Repr

/-- What stands next on the block's inputs: an item on the request port (R21); the reset input asserted between two
operations (R230); or an item whose operation the reset input aborts outside its port calls (R232). A reset that falls
in a port call is a draw of that call. -/
inductive Input where
  | item (it : Item)
  | reset
  | aborted (it : Item)
  deriving DecidableEq, Repr

/-- The state of one block instance. The registers are those of R20. A register with a valid bit is one `Option`:
`none` is valid bit 0, in which condition the register holds no value (R20: "A model represents it as absent, not as
zero"). `pay` holds PAY, RDEV, RHOST and RCMD, which PAY_V marks together (R26). The other fields are the ports:
`inputs` is the client's list of requests (R21), `responses` what the response port has delivered, `trace` every port
call so far, `rxDraws` and `txDraws` the environment's next answers, and `freeDraws` the model's own counter of
answers drawn when those lists are empty (log entry 3). -/
structure State where
  fsm       : Fsm
  dev       : Option Byte
  host      : Option Byte
  out       : Bool
  pay       : Option Frame
  ms        : Option (BitVec 4)
  inputs    : List Input
  responses : List Response
  trace     : List PortEvent
  rxDraws   : List RxDraw
  txDraws   : List TxDraw
  freeDraws : Nat
  deriving DecidableEq, Repr

/-- Why the machine stops. No reachable state meets the first three. -/
inductive Fault where
  /-- Raised by every meaning in a state that holds REGISTERING between operations; 93_implementation_defined.md
  section 2: such a state "is `fault`". Safe. -/
  | registeringAtRest
  /-- Raised by an operation that reads `DEV` while `DEV_V = 0`; 93_implementation_defined.md section 3: "`fault` on
  read". Safe. -/
  | absentDev
  /-- Raised by an operation that reads `HOST` while `HOST_V = 0`; 93_implementation_defined.md section 3: "`fault` on
  read". Safe. -/
  | absentHost
  /-- Raised by `step` on a request whose lane is not the bytes its word names, which R80's port cannot deliver. Safe. -/
  | laneMismatch
  /-- Raised by a port call that never returns; 93_implementation_defined.md section 4: "`stuck`: the operation has no
  next step". Safe. -/
  | channelHangs
  deriving DecidableEq, Repr

/-- Why an instruction has no meaning. -/
inductive Refusal where
  /-- Raised by an arm of `exec` for an instruction without a meaning; no arm does. Safe. -/
  | notModelled (mnemonic : String)
  /-- Raised for a term with over 255 data bytes, which no encoding expresses (R66). Safe. -/
  | dataOverLane
  deriving DecidableEq, Repr

/-- R230: the machine right after reset, with nothing requested and nothing on the ports. -/
def State.reset : State where
  fsm := .disconnected
  dev := none
  host := none
  out := false
  pay := none
  ms := none
  inputs := []
  responses := []
  trace := []
  rxDraws := []
  txDraws := []
  freeDraws := 0

end Sys2Proof.Machine
end

