-- ==== Sys2Proof/Machine/Errors.lean ====
section
/-! DEFINITION. Status classes, subcodes and the response record (R84, R85, R200 to R202). -/

namespace Sys2Proof.Machine

/-- R20: the 2-bit encoding of `FSM`. -/
def Fsm.code : Fsm → BitVec 2
  | .disconnected => 0
  | .registering => 1
  | .registered => 2
  | .master => 3

/-- R200: the status classes. -/
inductive StatusClass where
  | ok | checksum | protocol | device | timeout | state | busy | illegal | cmd
  deriving DecidableEq, Repr

/-- R200: the class codes. -/
def StatusClass.code : StatusClass → BitVec 4
  | .ok => 0x0
  | .checksum => 0x1
  | .protocol => 0x2
  | .device => 0x3
  | .timeout => 0x4
  | .state => 0x5
  | .busy => 0x6
  | .illegal => 0x7
  | .cmd => 0x8

/-- R200 to R202: every error, with what it records. `overlength` comes from `decodeFrame` only. -/
inductive Err where
  | checksum (received computed : Byte)
  | badStx | truncated | overlength | badReplyLen
  | device (code : BitVec 16)
  | timeoutRx | timeoutTx
  | fsmState | noDevice | notOutstanding | noPayload
  | busy | illegal | cmd
  deriving DecidableEq, Repr

/-- R200: the class of an error. -/
def Err.cls : Err → StatusClass
  | .checksum _ _ => .checksum
  | .badStx => .protocol
  | .truncated => .protocol
  | .overlength => .protocol
  | .badReplyLen => .protocol
  | .device _ => .device
  | .timeoutRx => .timeout
  | .timeoutTx => .timeout
  | .fsmState => .state
  | .noDevice => .state
  | .notOutstanding => .state
  | .noPayload => .state
  | .busy => .busy
  | .illegal => .illegal
  | .cmd => .cmd

/-- R201, R202: the subcode of an error. -/
def Err.sub : Err → BitVec 4
  | .checksum _ _ => 0
  | .badStx => 1
  | .truncated => 2
  | .overlength => 3
  | .badReplyLen => 4
  | .device _ => 0
  | .timeoutRx => 1
  | .timeoutTx => 2
  | .fsmState => 1
  | .noDevice => 2
  | .notOutstanding => 3
  | .noPayload => 4
  | .busy => 0
  | .illegal => 0
  | .cmd => 0

/-- R85: `STATUS`, the class in bits 7:4 and the subcode in bits 3:0. -/
def Err.status (e : Err) : Byte := e.cls.code ++ e.sub

/-- R84: the response with every field zero but the snapshot of `FSM`, `HOST_V` and `HOST` after the operation. -/
def Response.base (s : State) : Response where
  status := 0
  devcode := 0
  chkRx := 0
  chkCalc := 0
  warn := 0
  fsm := s.fsm.code
  hostV := s.host.isSome
  host := s.host.getD 0
  msf := 0
  rdev := 0
  rhost := 0
  rcmd := 0
  plen := 0
  payload := []

/-- R84: the error response, with `DEVCODE`, `CHK_RX` and `CHK_CALC` where the class records them. -/
def Response.error (e : Err) (s : State) : Response :=
  match e with
  | .checksum rx k => { Response.base s with status := e.status, chkRx := rx, chkCalc := k }
  | .device code => { Response.base s with status := e.status, devcode := code }
  | _ => { Response.base s with status := e.status }

end Sys2Proof.Machine
end

