-- ==== Sys2Proof/Machine/Codec.lean ====
section
/-! DEFINITION. The frame codec: checksum, encoder, and decoder over a byte sequence (R70 to R74, R100 to R102). -/

namespace Sys2Proof.Machine

/-- R9: the sum of a byte sequence as a natural number. -/
def sumBytes (bs : Bytes) : Nat := (bs.map BitVec.toNat).sum

/-- R100: the modular-sum checksum. -/
def checksum (n dev host msb lsb : Byte) (data : Bytes) : Byte :=
  BitVec.ofNat 8 (n.toNat + dev.toNat + host.toNat + msb.toNat + lsb.toNat + sumBytes data)

/-- R101: the frame of at most 255 data bytes; every caller has checked that bound. -/
def encodeFrame (device host : Byte) (command : Command) (data : Bytes) : Bytes :=
  [Config.stx, lenByte data, device, host, Command.msb command, Command.lsb command] ++ data ++
    [checksum (lenByte data) device host (Command.msb command) (Command.lsb command) data]

/-- R102: decoding a whole byte sequence. The checks stand in the rule's order. -/
def decodeFrame (raw : Bytes) : Except Err Frame :=
  match raw with
  | [] => .error .truncated
  | stx :: tail =>
    if stx ≠ Config.stx then .error .badStx
    else match tail with
      | n :: dev :: host :: msb :: lsb :: body =>
        if body.length < n.toNat + 1 then .error .truncated
        else if n.toNat + 1 < body.length then .error .overlength
        else
          let data := body.take n.toNat
          let c := (body.drop n.toNat).headD 0
          let k := checksum n dev host msb lsb data
          if c ≠ k then .error (.checksum c k)
          else .ok ⟨dev, host, commandOfBytes msb lsb, data⟩
      | _ => .error .truncated

end Sys2Proof.Machine
end

