-- ==== Sys2Proof/Machine/Flags.lean ====
section
/-! DEFINITION. The master-status flags and the warning mask (R27, R78, R86, R180, R181). -/

namespace Sys2Proof.Machine

/-- A 4-bit mask from its bits, bit 0 first. -/
def nibble (b0 b1 b2 b3 : Bool) : BitVec 4 := BitVec.ofBool b3 ++ BitVec.ofBool b2 ++ BitVec.ofBool b1 ++ BitVec.ofBool b0

/-- R78, R180: the four flags of a master-status byte, in the layout of R27. `is_master` is bit 0 of the byte under
every map. -/
def masterFlags (map : MsBitMap) (s : Byte) : BitVec 4 :=
  nibble (s.getLsbD 0) (s.getLsbD map.remoteEnabled.val) (s.getLsbD map.hostRegistered.val)
    (s.getLsbD map.otherMasterPresent.val)

/-- R181: the warning mask of an MSTATUS response. -/
def mswarn (f : BitVec 4) (fsm : Fsm) : BitVec 4 :=
  nibble (f.getLsbD 0 && f.getLsbD 3) (f.getLsbD 0 && !f.getLsbD 2) (f.getLsbD 0 != (fsm == .master)) false

/-- R86, R190: `W_RELEASE_FAILED`, bit 3, when the teardown release failed. -/
def releaseWarn (failed : Bool) : BitVec 4 := nibble false false false failed

end Sys2Proof.Machine
end

