-- ==== Sys2Proof/Machine/Operands.lean ====
section
/-! DEFINITION. The data lane of a request and the payload lane of a response (R11, R50, R57). -/

namespace Sys2Proof.Machine

/-- R11: `MemRead(addr, n)` over the data lane of the current request. -/
def memRead (lane : Bytes) (addr n : Nat) : Bytes := (lane.drop addr).take n

/-- R11: `MemWrite(addr, n, v)` over the payload lane of a response. -/
def memWrite (lane : Bytes) (addr n : Nat) (v : Bytes) : Bytes := lane.take addr ++ v.take n ++ lane.drop (addr + n)

/-- R140, R145: `MemWrite(0, len(data), data)` with `PLEN = len(data)`. -/
def Response.withPayload (r : Response) (data : Bytes) : Response :=
  { r with plen := BitVec.ofNat 8 data.length, payload := memWrite r.payload 0 data.length data }

/-- R66: the request's `LEN` field cannot express more than 255 bytes, so a longer term has no meaning. -/
def withinLane (data : Bytes) (k : Host.Outcome State Fault Refusal) : Host.Outcome State Fault Refusal :=
  if dataFits data then k else .refused .dataOverLane

end Sys2Proof.Machine
end

