-- ==== Sys2Proof/Machine/Ops.lean ====
section
/-! DEFINITION. The shared operations: responding and raising (R13, R84, R205), reset (R230 to R232), admission
(R130, R203), and the port procedures (R12, R103, R104, R162). -/

namespace Sys2Proof.Machine

/-- What a meaning answers. -/
abbrev Result := Host.Outcome State Fault Refusal

/-! ### Responses and errors -/

/-- R84: the response port delivers one response. -/
def State.answer (s : State) (r : Response) : State := { s with responses := s.responses ++ [r] }

/-- R84: the operation ends with one response. -/
def respond (r : Response) (s : State) : Result := .next (s.answer r)

/-- R13: `respond(OK)` with no named field. -/
def respondOk (s : State) : Result := respond (Response.base s) s

/-- R13, R205: `raise`, the one way an error is reported: the response of the operation that met it, every earlier
register write standing. No return operation exists (R206): the next step takes the next request. -/
def raise (e : Err) (s : State) : Result := respond (Response.error e s) s

/-! ### Reset -/

/-- R230, R231: every register at its reset value; the ports are untouched. -/
def resetRegisters (s : State) : State :=
  { s with fsm := .disconnected, dev := none, host := none, out := false, pay := none, ms := none }

/-! ### Admission -/

/-- 93_implementation_defined.md section 2: a state that shows REGISTERING outside REGHOST is a fault. -/
def atRest (s : State) (k : Result) : Result := if s.fsm = .registering then .fault .registeringAtRest else k

/-- R203 steps 2 and 3: `BUSY` while a response is outstanding, then `STATE(FSM_STATE)` where `FSM` forbids the
operation (R161). -/
def whenLegal (legal : Fsm → Bool) (s : State) (k : Result) : Result :=
  atRest s (if s.out then raise .busy s else if legal s.fsm then k else raise .fsmState s)

/-- R161: REGISTERED or MASTER. -/
def connected (f : Fsm) : Bool := f == .registered || f == .master

/-- `x[DEV]`, which R104's callers have checked valid; a read while `DEV_V = 0` faults. -/
def withDev (s : State) (k : Byte → Result) : Result :=
  match s.dev with
  | some d => k d
  | none => .fault .absentDev

/-- `x[DEV]` and `x[HOST]`; a read while the valid bit is 0 faults. -/
def withAddresses (s : State) (k : Byte → Byte → Result) : Result :=
  withDev s fun d =>
    match s.host with
    | some h => k d h
    | none => .fault .absentHost

/-- R203 step 1: a request the decoder rejects raises `ILLEGAL`, with no other effect. -/
def illegalRequest (s : State) : Result := atRest s (raise .illegal s)

/-! ### Ports -/

/-- How a port procedure ends: with a value, with a raised error, aborted by reset (R232), or never (R242). -/
inductive Port (α : Type) where
  | ok (a : α) (s : State)
  | raised (e : Err) (s : State)
  | aborted (s : State)
  | stuck
  deriving Repr

/-- One procedure after another. -/
def Port.bind {α β : Type} (p : Port α) (k : α → State → Port β) : Port β :=
  match p with
  | .ok a s => k a s
  | .raised e s => .raised e s
  | .aborted s => .aborted s
  | .stuck => .stuck

/-- The end of an operation's port traffic: go on, handle the error, or be aborted without a response (R232). -/
def Port.conclude {α : Type} (p : Port α) (onErr : Err → State → Result) (k : α → State → Result) : Result :=
  match p with
  | .ok a s => k a s
  | .raised e s => onErr e s
  | .aborted s => .next (resetRegisters s)
  | .stuck => .fault .channelHangs

/-- R12: the answer of the next `RxByte` call: the environment's list, else a free draw. -/
def drawRx (s : State) : RxDraw × State :=
  match s.rxDraws with
  | d :: ds => (d, { s with rxDraws := ds })
  | [] => ((Config.freeRx s.freeDraws).returning, { s with freeDraws := s.freeDraws + 1 })

/-- R12: the answer of the next `TxFrame` call: the environment's list, else a free draw. -/
def drawTx (s : State) : TxDraw × State :=
  match s.txDraws with
  | d :: ds => (d, { s with txDraws := ds })
  | [] => ((Config.freeTx s.freeDraws).returning, { s with freeDraws := s.freeDraws + 1 })

/-- A port call is over. -/
def State.record (s : State) (ev : PortEvent) : State := { s with trace := s.trace ++ [ev] }

/-- R12: `RxByte()`. `onTimeout` is the error its caller raises for `TIMEOUT`. -/
def rxByte (onTimeout : Err) (s : State) : Port Byte :=
  match drawRx s with
  | (.byte b, s') => .ok b (s'.record (.rx b))
  | (.timeout, s') => .raised onTimeout (s'.record .rxTimeout)
  | (.reset, s') => .aborted s'
  | (.byteReset b, s') => .aborted (s'.record (.rx b))
  | (.hang, _) => .stuck

/-- R103: `n` more bytes of a frame, each a `TRUNCATED` if it does not come. -/
def rxBytes : Nat → State → Port Bytes
  | 0, s => .ok [] s
  | n + 1, s => (rxByte .truncated s).bind fun b s => (rxBytes n s).bind fun bs s => .ok (b :: bs) s

/-- R103: the check at the end of a frame, with the received `CHK`. -/
def verify (n dev host msb lsb : Byte) (data : Bytes) (c : Byte) (s : State) : Port Frame :=
  if c ≠ checksum n dev host msb lsb data then .raised (.checksum c (checksum n dev host msb lsb data)) s
  else .ok ⟨dev, host, commandOfBytes msb lsb, data⟩ s

/-- R103: the receive procedure after the STX byte. -/
def rxBody (s : State) : Port Frame :=
  (rxByte .truncated s).bind fun n s =>
  (rxByte .truncated s).bind fun dev s =>
  (rxByte .truncated s).bind fun host s =>
  (rxByte .truncated s).bind fun msb s =>
  (rxByte .truncated s).bind fun lsb s =>
  (rxBytes n.toNat s).bind fun data s =>
  (rxByte .truncated s).bind fun c s => verify n dev host msb lsb data c s

/-- R103: `RxFrame()`, exactly one frame from the RX port. -/
def rxFrame (s : State) : Port Frame :=
  (rxByte .timeoutRx s).bind fun b s => if b ≠ Config.stx then .raised .badStx s else rxBody s

/-- R12, R57: `TxFrame(f)`. A timeout takes fewer bytes than the frame has (`0 <= k < len(f)`); a reset may come
after any number of them. -/
def txFrame (f : Bytes) (s : State) : Port Unit :=
  match drawTx s with
  | (.accepted, s') => .ok () (s'.record (.tx f f.length))
  | (.timeout k, s') => .raised .timeoutTx (s'.record (.tx f (k % f.length)))
  | (.reset k, s') => .aborted (s'.record (.tx f (k % (f.length + 1))))
  | (.hang, _) => .stuck

/-- R104: `TxSend`, exactly one frame to the TX port. -/
def txSend (dev hostbyte : Byte) (command : Command) (data : Bytes) (s : State) : Port Unit :=
  txFrame (encodeFrame dev hostbyte command data) s

/-- R162: `Transact`, one frame out and one frame in. -/
def transact (dev hostbyte : Byte) (command : Command) (data : Bytes) (s : State) : Port Bytes :=
  (txSend dev hostbyte command data s).bind fun _ s => (rxFrame s).bind fun f s => .ok f.data s

/-- R162: a control command whose reply's data must be exactly one byte. -/
def controlReply (dev hostbyte : Byte) (command : Command) (data : Bytes) (s : State) : Port Byte :=
  (transact dev hostbyte command data s).bind fun rdata s =>
    match rdata with
    | [b] => .ok b s
    | _ => .raised .badReplyLen s

/-- R175, R185, R190: MASTER_SET with one data byte; a reply byte other than zero is a device error carrying it. -/
def masterSet (dev host : Byte) (data : Byte) (s : State) : Port Unit :=
  (controlReply dev host Config.masterSet [data] s).bind fun b s =>
    if b ≠ Config.releaseByte then .raised (.device (b.setWidth 16)) s else .ok () s

/-- The bytes that went out on TX, in order (R51). -/
def PortEvent.sent : PortEvent → Bytes
  | .tx f k => f.take k
  | .rx _ => []
  | .rxTimeout => []

/-- The bytes taken from RX, in order (R51, R59). -/
def PortEvent.taken : PortEvent → Bytes
  | .tx _ _ => []
  | .rx b => [b]
  | .rxTimeout => []

/-- The TX stream so far (R50). -/
def State.txStream (s : State) : Bytes := s.trace.flatMap PortEvent.sent

/-- The RX stream consumed so far (R50, R59). -/
def State.rxStream (s : State) : Bytes := s.trace.flatMap PortEvent.taken

end Sys2Proof.Machine
end

