-- ==== Sys2Proof/Machine/Arbitration.lean ====
section
/-! DEFINITION. Host registration and master arbitration: REGHOST, ASSIGN, MSTATUS, RELEASE and DISCONNECT
(42_arbitration.md). -/

namespace Sys2Proof.Machine

/-- R170: the `catch` of REGHOST. -/
def registrationFailed (e : Err) (s : State) : Result := raise e { s with fsm := .disconnected }

/-- R170: REGHOST, under the parameters `p`. `FSM` is REGISTERING while the exchange runs. -/
def reghost (p : Params) (id : Bytes) (s : State) : Result :=
  withinLane id <| whenLegal (· == .disconnected) s <|
    if s.dev.isNone then raise .noDevice s
    else withDev s fun d =>
      (controlReply d p.regHostField Config.regHost (memRead id 0 id.length) { s with fsm := .registering }).conclude
        registrationFailed fun b s => respondOk { s with host := some b, fsm := .registered }

/-- R175: ASSIGN. -/
def assign (s : State) : Result :=
  whenLegal (· == .registered) s <| withAddresses s fun d h =>
    (masterSet d h Config.assignByte s).conclude raise fun _ s => respondOk { s with fsm := .master }

/-- R180: the response of a master-status read. -/
def Response.masterStatus (f : BitVec 4) (s : State) : Response :=
  { Response.base s with msf := f, warn := mswarn f s.fsm }

/-- R180: MSTATUS, under the parameters `p`. -/
def mstatus (p : Params) (s : State) : Result :=
  whenLegal connected s <| withAddresses s fun d h =>
    (controlReply d h Config.masterGet [] s).conclude raise fun b s =>
      respond (Response.masterStatus (masterFlags p.msBitMap b) s) { s with ms := some (masterFlags p.msBitMap b) }

/-- R185: RELEASE. -/
def release (s : State) : Result :=
  whenLegal (· == .master) s <| withAddresses s fun d h =>
    (masterSet d h Config.releaseByte s).conclude raise fun _ s => respondOk { s with fsm := .registered }

/-- R190: the registers a disconnect clears. `DEV` and `DEV_V` are kept. -/
def endSession (s : State) : State := { s with fsm := .disconnected, host := none, ms := none, pay := none }

/-- R190: the end of DISCONNECT, with `W_RELEASE_FAILED` when the teardown release failed. -/
def disconnected (failed : Bool) (s : State) : Result :=
  respond { Response.base (endSession s) with warn := releaseWarn failed } (endSession s)

/-- R190: DISCONNECT. A teardown release is tried in MASTER only, and its failure is a warning. -/
def disconnect (s : State) : Result :=
  whenLegal (fun _ => true) s <|
    if s.fsm = .master then
      withAddresses s fun d h =>
        (masterSet d h Config.releaseByte s).conclude (fun _ s => disconnected true s) fun _ s => disconnected false s
    else disconnected false s

/-- R170: the meaning of REGHOST. -/
def execReghost (id : Bytes) (s : State) : Result := reghost Config.params id s

/-- R175: the meaning of ASSIGN. -/
def execAssign (s : State) : Result := assign s

/-- R180: the meaning of MSTATUS. -/
def execMstatus (s : State) : Result := mstatus Config.params s

/-- R185: the meaning of RELEASE. -/
def execRelease (s : State) : Result := release s

/-- R190: the meaning of DISCONNECT. -/
def execDisconnect (s : State) : Result := disconnect s

end Sys2Proof.Machine
end

