-- ==== Sys2Proof/Machine/Facade.lean ====
section
/-! DEFINITION. The communication interface operations CONFIG, SEND, RECV and CHECK (41_facade.md). -/

namespace Sys2Proof.Machine

/-- R131: CONFIG. -/
def config (dev : Byte) (s : State) : Result :=
  whenLegal (· == .disconnected) s (respondOk { s with dev := some dev })

/-- R135: SEND. -/
def send (cmd : Command) (data : Bytes) (s : State) : Result :=
  withinLane data <| whenLegal connected s <|
    if isControl cmd then raise .cmd s
    else withAddresses s fun d h =>
      (txSend d h cmd (memRead data 0 data.length) s).conclude raise fun _ s =>
        respondOk { s with out := true, pay := none }

/-- R140: the response of an accepted frame. -/
def Response.received (f : Frame) (s : State) : Response :=
  ({ Response.base s with rdev := f.device, rhost := f.host, rcmd := f.command }).withPayload f.data

/-- R140: RECV. -/
def recv (s : State) : Result :=
  atRest s <|
    if s.out then
      (rxFrame { s with out := false, pay := none }).conclude raise fun f s =>
        respond (Response.received f s) { s with pay := some f }
    else raise .notOutstanding s

/-- R8, R145: what `DEVERR` finds in a payload, zero-extended into `DEVCODE`. -/
def deviceError (p : Params) (payload : Bytes) : Option (BitVec 16) := (p.deverr payload).map (·.setWidth 16)

/-- R145: CHECK, under the parameters `p`. -/
def check (p : Params) (s : State) : Result :=
  atRest s <|
    match s.pay with
    | none => raise .noPayload s
    | some f =>
      match deviceError p f.data with
      | some code => raise (.device code) s
      | none => respond ((Response.base s).withPayload f.data) s

/-- R131: the meaning of CONFIG. -/
def execConfig (dev : Byte) (s : State) : Result := config dev s

/-- R135: the meaning of SEND. -/
def execSend (cmd : Command) (data : Bytes) (s : State) : Result := send cmd data s

/-- R140: the meaning of RECV. -/
def execRecv (s : State) : Result := recv s

/-- R145: the meaning of CHECK. -/
def execCheck (s : State) : Result := check Config.params s

end Sys2Proof.Machine
end

