-- ==== Sys2Proof/Machine/WireCommands.lean ====
section
/-! DEFINITION. The wire commands of R76. The block puts a control command on the line only as the operation the table
names as its sender, and every other command through SEND, so each row means that operation (log entry 1). -/

namespace Sys2Proof.Machine

/-- R76, R170: REG_HOST, sent by REGHOST. -/
def execWireRegHost (id : Bytes) (s : State) : Result := reghost Config.params id s

/-- R76, R77, R175: MASTER_SET with `0x01`, sent by ASSIGN. -/
def execWireMasterSetAssign (s : State) : Result := assign s

/-- R76, R77, R185: MASTER_SET with `0x00`, sent by RELEASE. -/
def execWireMasterSetRelease (s : State) : Result := release s

/-- R76, R180: MASTER_GET, sent by MSTATUS. -/
def execWireMasterGet (s : State) : Result := mstatus Config.params s

/-- R75, R76, R135: a device "get" command, sent by SEND. -/
def execWireDeviceGet (cmd : Command) (data : Bytes) (s : State) : Result := send cmd data s

/-- R75, R76, R135: a device "set" command, sent by SEND, which does not look at bit 15 (R210). -/
def execWireDeviceSet (cmd : Command) (data : Bytes) (s : State) : Result := send cmd data s

/-- R76: the operation that sends a wire command; an operation itself otherwise. -/
def operation : Instr → Instr
  | .wireRegHost id => .reghost id
  | .wireMasterSetAssign => .assign
  | .wireMasterSetRelease => .release
  | .wireMasterGet => .mstatus
  | .wireDeviceGet cmd data => .send cmd data
  | .wireDeviceSet cmd data => .send cmd data
  | i => i

end Sys2Proof.Machine
end

