-- ==== Sys2Proof/Machine/Dispatch.lean ====
section
/-! DEFINITION. One arm per instruction. -/

namespace Sys2Proof.Machine

/-- The meaning of each instruction. -/
def exec (i : Instr) (s : State) : Host.Outcome State Fault Refusal :=
  match i with
  | .config dev => Sys2Proof.Machine.execConfig dev s
  | .reghost id => Sys2Proof.Machine.execReghost id s
  | .assign => Sys2Proof.Machine.execAssign s
  | .mstatus => Sys2Proof.Machine.execMstatus s
  | .release => Sys2Proof.Machine.execRelease s
  | .send cmd data => Sys2Proof.Machine.execSend cmd data s
  | .recv => Sys2Proof.Machine.execRecv s
  | .check => Sys2Proof.Machine.execCheck s
  | .disconnect => Sys2Proof.Machine.execDisconnect s
  | .wireRegHost id => Sys2Proof.Machine.execWireRegHost id s
  | .wireMasterSetAssign => Sys2Proof.Machine.execWireMasterSetAssign s
  | .wireMasterSetRelease => Sys2Proof.Machine.execWireMasterSetRelease s
  | .wireMasterGet => Sys2Proof.Machine.execWireMasterGet s
  | .wireDeviceGet cmd data => Sys2Proof.Machine.execWireDeviceGet cmd data s
  | .wireDeviceSet cmd data => Sys2Proof.Machine.execWireDeviceSet cmd data s

end Sys2Proof.Machine
end

