-- ==== Sys2Proof/Machine/Fetch.lean ====
section
/-! DEFINITION. What the request port hands to the next step (R80, R130 stage 1, R214). -/

namespace Sys2Proof.Machine

/-- What the head of the inputs asks of the block. -/
inductive Fetched where
  /-- R214: nothing is requested. -/
  | idle
  /-- R230, R232: the reset input, between two operations or aborting the one at the head. -/
  | reset (rest : State)
  /-- A decoded instruction. -/
  | run (i : Instr) (rest : State)
  /-- R83: an item that is no instruction. -/
  | illegal (rest : State)
  /-- R80: a request the port cannot deliver. -/
  | undeliverable

/-- Takes the next input and decodes it. `rest` is the state with that input taken. -/
def fetch (s : State) : Fetched :=
  match s.inputs with
  | [] => .idle
  | .reset :: ins => .reset { s with inputs := ins }
  | .aborted _ :: ins => .reset { s with inputs := ins }
  | .item it :: ins =>
    match decode it with
    | .ok i => .run i { s with inputs := ins }
    | .error .laneMismatch => .undeliverable
    | .error _ => .illegal { s with inputs := ins }

end Sys2Proof.Machine
end

