-- ==== Sys2Proof/Machine/Step.lean ====
section
/-! DEFINITION. One step: the next input of the request port, whole (R58, R61, R130). -/

namespace Sys2Proof.Machine

/-- One step. -/
def step (s : State) : Host.Outcome State Fault Refusal :=
  match fetch s with
  | .idle => .next s
  | .reset rest => .next (resetRegisters rest)
  | .run i rest => exec i rest
  | .illegal rest => illegalRequest rest
  | .undeliverable => .fault .laneMismatch

/-- The state with the table's item at the head of the request port, so that the next step runs it. -/
def State.withFetchWord (s : State) (nbits w : Nat) : State :=
  { s with inputs := .item (tableItem nbits w) :: s.inputs }

end Sys2Proof.Machine
end

