-- ==== Sys2Proof/Machine/Assembler.lean ====
section
/-! DEFINITION. The assembler syntax of R87 and the pseudo-instructions of R88: from a line of characters to a line's
terms, and from those to requests. -/

namespace Sys2Proof.Machine

/-- R87, R88: one line, its numbers not yet checked against their bounds. -/
inductive AsmLine where
  | config (dev : Nat)
  | reghost (id : List Nat)
  | assign
  | mstatus
  | release
  | send (cmd : Nat) (data : List Nat)
  | recv
  | check
  | disconnect
  | connect (dev : Nat) (id : List Nat)
  | xfer (cmd : Nat) (data : List Nat)
  | xferc (cmd : Nat) (data : List Nat)
  deriving DecidableEq, Repr

/-- R87: a byte is 0 to 255; another number is refused, not truncated. -/
def asmByte (n : Nat) : Option Byte := if n ≤ 255 then some (BitVec.ofNat 8 n) else none

/-- R87: a command is 0 to `0xFFFF`. -/
def asmCommand (n : Nat) : Option Command := if n ≤ 0xFFFF then some (BitVec.ofNat 16 n) else none

/-- R87: a list has at most 255 bytes. -/
def asmBytes (l : List Nat) : Option Bytes := if l.length ≤ 255 then l.mapM asmByte else none

/-- R87, R88: the operations of a line, or none where the assembler refuses it. -/
def AsmLine.operations : AsmLine → Option (List Instr)
  | .config dev => (asmByte dev).map fun d => [.config d]
  | .reghost id => (asmBytes id).map fun i => [.reghost i]
  | .assign => some [.assign]
  | .mstatus => some [.mstatus]
  | .release => some [.release]
  | .send cmd data => (asmCommand cmd).bind fun c => (asmBytes data).map fun d => [.send c d]
  | .recv => some [.recv]
  | .check => some [.check]
  | .disconnect => some [.disconnect]
  | .connect dev id => (asmByte dev).bind fun d => (asmBytes id).map fun i => [.config d, .reghost i]
  | .xfer cmd data => (asmCommand cmd).bind fun c => (asmBytes data).map fun d => [.send c d, .recv]
  | .xferc cmd data => (asmCommand cmd).bind fun c => (asmBytes data).map fun d => [.send c d, .recv, .check]

/-- R87: the requests of a line. -/
def AsmLine.assemble (l : AsmLine) : Option (List Item) := l.operations.map fun is => is.map Instr.encode

/-- R21, R88: the requests of a program, in order. -/
def assembleProgram : List AsmLine → Option (List Item)
  | [] => some []
  | l :: ls => l.assemble.bind fun a => (assembleProgram ls).map fun b => a ++ b

/-! ### The text of a line (log entry 9) -/

/-- The words of a line. -/
inductive AsmToken where
  | name (cs : List Char)
  | number (n : Nat)
  | text (cs : List Char)
  | comma
  | openList
  | closeList
  deriving DecidableEq, Repr

/-- The value of a hexadecimal digit. -/
def digitValue (c : Char) : Option Nat :=
  if '0' ≤ c ∧ c ≤ '9' then some (c.toNat - '0'.toNat)
  else if 'a' ≤ c ∧ c ≤ 'f' then some (c.toNat - 'a'.toNat + 10)
  else if 'A' ≤ c ∧ c ≤ 'F' then some (c.toNat - 'A'.toNat + 10)
  else none

/-- Digits to a number in a base, the first digit first. -/
def numberFrom (base : Nat) : Nat → List Char → Option Nat
  | n, [] => some n
  | n, c :: cs =>
    match digitValue c with
    | some d => if d < base then numberFrom base (n * base + d) cs else none
    | none => none

/-- R87: a number is hexadecimal, binary or decimal. -/
def asmNumber : List Char → Option Nat
  | '0' :: 'x' :: c :: cs => numberFrom 16 0 (c :: cs)
  | '0' :: 'b' :: c :: cs => numberFrom 2 0 (c :: cs)
  | c :: cs => numberFrom 10 0 (c :: cs)
  | [] => none

/-- A character of a name or number. -/
def isWordChar (c : Char) : Bool :=
  ('0' ≤ c && c ≤ '9') || ('a' ≤ c && c ≤ 'z') || ('A' ≤ c && c ≤ 'Z')

/-- The tokens of a line; the first argument bounds the steps. A `;` starts a comment. -/
def asmTokens : Nat → List Char → Option (List AsmToken)
  | _, [] => some []
  | 0, _ :: _ => none
  | n + 1, c :: cs =>
    if c = ' ' ∨ c = '\t' then asmTokens n cs
    else if c = ';' then some []
    else if c = ',' then (asmTokens n cs).map (.comma :: ·)
    else if c = '[' then (asmTokens n cs).map (.openList :: ·)
    else if c = ']' then (asmTokens n cs).map (.closeList :: ·)
    else if c = '"' then
      match cs.dropWhile (· ≠ '"') with
      | [] => none
      | _ :: rest => (asmTokens n rest).map (.text (cs.takeWhile (· ≠ '"')) :: ·)
    else if isWordChar c then
      let word := c :: cs.takeWhile isWordChar
      let rest := asmTokens n (cs.dropWhile isWordChar)
      if '0' ≤ c ∧ c ≤ '9' then (asmNumber word).bind fun k => rest.map (.number k :: ·)
      else rest.map (.name word :: ·)
    else none

/-- R87: the rest of a byte list after its first number. -/
def asmListTail : List AsmToken → Option (List Nat)
  | [.closeList] => some []
  | .comma :: .number n :: ts => (asmListTail ts).map (n :: ·)
  | _ => none

/-- R87: a byte list `[b0, b1, ...]`, possibly empty, that ends the line. -/
def asmList : List AsmToken → Option (List Nat)
  | [.openList, .closeList] => some []
  | .openList :: .number n :: ts => (asmListTail ts).map (n :: ·)
  | _ => none

/-- R87: an identifier, a byte list or a string of ASCII characters. -/
def asmIdentifier : List AsmToken → Option (List Nat)
  | [.text cs] => if cs.all (fun c => decide (c.toNat < 128)) then some (cs.map Char.toNat) else none
  | ts => asmList ts

/-- R87, R88: a line of tokens. -/
def asmLine : List AsmToken → Option AsmLine
  | [.name n] =>
    if n = ['A', 'S', 'S', 'I', 'G', 'N'] then some .assign
    else if n = ['M', 'S', 'T', 'A', 'T', 'U', 'S'] then some .mstatus
    else if n = ['R', 'E', 'L', 'E', 'A', 'S', 'E'] then some .release
    else if n = ['R', 'E', 'C', 'V'] then some .recv
    else if n = ['C', 'H', 'E', 'C', 'K'] then some .check
    else if n = ['D', 'I', 'S', 'C', 'O', 'N', 'N', 'E', 'C', 'T'] then some .disconnect
    else none
  | [.name n, .number d] => if n = ['C', 'O', 'N', 'F', 'I', 'G'] then some (.config d) else none
  | .name n :: .number k :: .comma :: ts =>
    if n = ['S', 'E', 'N', 'D'] then (asmList ts).map (.send k)
    else if n = ['X', 'F', 'E', 'R'] then (asmList ts).map (.xfer k)
    else if n = ['X', 'F', 'E', 'R', 'C'] then (asmList ts).map (.xferc k)
    else if n = ['C', 'O', 'N', 'N', 'E', 'C', 'T'] then (asmIdentifier ts).map (.connect k)
    else none
  | .name n :: ts =>
    if n = ['R', 'E', 'G', 'H', 'O', 'S', 'T'] then (asmIdentifier ts).map .reghost else none
  | _ => none

/-- R87: a line of characters, or none where it is no line. -/
def parseAsm (cs : List Char) : Option AsmLine := (asmTokens cs.length cs).bind asmLine

end Sys2Proof.Machine
end

