-- ==== Sys2Proof/Safety.lean ====
section
/-! DEFINITION. The invariants of R29 and their companions, and what the environment owes the block (R80, R233,
R242). -/

namespace Sys2Proof.Machine

/-- The registers, apart from the ports. -/
structure Registers where
  fsm  : Fsm
  dev  : Option Byte
  host : Option Byte
  out  : Bool
  pay  : Option Frame
  ms   : Option (BitVec 4)
  deriving DecidableEq, Repr

/-- The register file of R20. -/
def State.registers (s : State) : Registers := ⟨s.fsm, s.dev, s.host, s.out, s.pay, s.ms⟩

/-- R29: what the registers satisfy between operations. -/
structure SessionInv (s : State) : Prop where
  host_iff_session : s.host.isSome = true ↔ (s.fsm = .registered ∨ s.fsm = .master)
  not_registering : s.fsm ≠ .registering
  out_in_session : s.out = true → (s.fsm = .registered ∨ s.fsm = .master)
  dev_in_session : (s.fsm = .registered ∨ s.fsm = .master) → s.dev.isSome = true

/-- What R26 and R27 imply of the received data and the flags: a payload is held in a session only, never beside an
outstanding request, and within PAY's 255 bytes; the flags are held in a session only. -/
structure ReceivedInv (s : State) : Prop where
  pay_in_session : s.pay.isSome = true → (s.fsm = .registered ∨ s.fsm = .master)
  pay_answers_latest : s.out = true → s.pay = none
  pay_fits : ∀ f, s.pay = some f → f.data.length ≤ 255
  ms_in_session : s.ms.isSome = true → (s.fsm = .registered ∨ s.fsm = .master)

/-- R80: the port delivers each request with exactly the bytes its word names. -/
def Item.deliverable : Item → Bool
  | .request w lane => laneExact w lane
  | .frameCommand _ _ => true

/-- R80: every request of the client's list can be delivered. -/
def PortContract (s : State) : Prop := ∀ it, Input.item it ∈ s.inputs → Item.deliverable it = true

/-- R233, R242: every port call returns. -/
structure ChannelReturns (s : State) : Prop where
  rx : RxDraw.hang ∉ s.rxDraws
  tx : TxDraw.hang ∉ s.txDraws

/-- A run of `k` steps from `s` that stops nowhere. -/
def SafeRun (s : State) (k : Nat) : Prop :=
  ∃ t, Host.Core.run ⟨State, Fault, Refusal, step, State.reset⟩ k s = .next t

end Sys2Proof.Machine
end

