-- ==== Sys2Proof/WellFormed.lean ====
section
/-! DEFINITION. Which instructions the encodings of 30_encoding.md can express. -/

namespace Sys2Proof

/-- The well-formed instructions: data within R66's bound, and for the table's DEVICE_GET and DEVICE_SET rows a
command that is not a control code and has the row's bit 15 (R76). -/
def Instr.wf : Instr → Bool
  | .config _ => true
  | .reghost id => dataFits id
  | .assign => true
  | .mstatus => true
  | .release => true
  | .send _ data => dataFits data
  | .recv => true
  | .check => true
  | .disconnect => true
  | .wireRegHost id => dataFits id
  | .wireMasterSetAssign => true
  | .wireMasterSetRelease => true
  | .wireMasterGet => true
  | .wireDeviceGet cmd data => dataFits data && !isControl cmd && !setBit cmd
  | .wireDeviceSet cmd data => dataFits data && !isControl cmd && setBit cmd

end Sys2Proof
end

