-- ==== Sys2Proof/Certificates/Slice0/Obligations.lean ====
section
/-! DEFINITION. The statements for the provers, from the numbered rules of the spec. -/

namespace Sys2Proof.Machine

/-! ### Words the statements use -/

/-- `t` delivered exactly the response `r` beyond those of `s`. -/
def Answered (s t : State) (r : Response) : Prop := t.responses = s.responses ++ [r]

/-- R232: `t` is `s` after a reset aborted the operation: no response, every register at its reset value. -/
def AbortedByReset (s t : State) : Prop := t.responses = s.responses ∧ t.registers = State.reset.registers

/-- R232: `i` from `s`, whose own port procedure a reset aborted in `p`, ends in `p` with the reset registers: the port
calls made until then stay made, no response comes, and the client's list is untouched. -/
def AbortsIn (i : Instr) (s p : State) : Prop :=
  (∃ evs, p.trace = s.trace ++ evs) ∧ p.responses = s.responses ∧ p.inputs = s.inputs ∧
  exec i s =
    .next { p with fsm := .disconnected, dev := none, host := none, out := false, pay := none, ms := none }

/-- R162: the errors `Transact` raises. -/
def TransactError (e : Err) : Prop :=
  e = .timeoutTx ∨ e = .timeoutRx ∨ e = .badStx ∨ e = .truncated ∨ ∃ c k, c ≠ k ∧ e = .checksum c k

/-- R84: the class of a response, `STATUS[7:4]`. -/
def Response.classCode (r : Response) : BitVec 4 := r.status.extractLsb' 4 4

/-- R203 steps 1 to 4: the classes reported before any port is touched. -/
def AdmissionClass (c : BitVec 4) : Prop := c = 0x5 ∨ c = 0x6 ∨ c = 0x7 ∨ c = 0x8

/-- The state after an exchange of one whole frame each way, taken from the environment's lists. -/
def State.exchanged (s : State) (out reply : Bytes) (ts : List TxDraw) (ds : List RxDraw) : State :=
  { s with txDraws := ts, rxDraws := ds, trace := s.trace ++ .tx out out.length :: reply.map .rx }

/-- R161, R203 and section 2.10 of 95_test_vectors.md: the admission error of each operation, if any. Here and below a
wire command has what its sender has (log entry 1). -/
def admissionError (i : Instr) (s : State) : Option Err :=
  match operation i, s.out, s.fsm with
  | .config _, true, _ => some .busy
  | .config _, false, .disconnected => none
  | .config _, false, _ => some .fsmState
  | .reghost _, true, _ => some .busy
  | .reghost _, false, .disconnected => if s.dev = none then some .noDevice else none
  | .reghost _, false, _ => some .fsmState
  | .assign, true, _ => some .busy
  | .assign, false, .registered => none
  | .assign, false, _ => some .fsmState
  | .mstatus, true, _ => some .busy
  | .mstatus, false, .registered => none
  | .mstatus, false, .master => none
  | .mstatus, false, _ => some .fsmState
  | .release, true, _ => some .busy
  | .release, false, .master => none
  | .release, false, _ => some .fsmState
  | .send _ _, true, _ => some .busy
  | .send _ _, false, .disconnected => some .fsmState
  | .send c _, false, _ => if c = 0x7FF0 ∨ c = 0xFFF1 ∨ c = 0x7FF1 then some .cmd else none
  | .recv, false, _ => some .notOutstanding
  | .recv, true, _ => none
  | .check, _, _ => if s.pay = none then some .noPayload else none
  | .disconnect, true, _ => some .busy
  | .disconnect, false, _ => none
  | _, _, _ => none

/-- R200 to R202: the status values each operation can report. -/
def possibleStatus (i : Instr) : List Byte :=
  match operation i with
  | .config _ => [0x00, 0x51, 0x60]
  | .reghost _ => [0x00, 0x10, 0x21, 0x22, 0x24, 0x41, 0x42, 0x51, 0x52, 0x60]
  | .assign => [0x00, 0x10, 0x21, 0x22, 0x24, 0x30, 0x41, 0x42, 0x51, 0x60]
  | .mstatus => [0x00, 0x10, 0x21, 0x22, 0x24, 0x41, 0x42, 0x51, 0x60]
  | .release => [0x00, 0x10, 0x21, 0x22, 0x24, 0x30, 0x41, 0x42, 0x51, 0x60]
  | .send _ _ => [0x00, 0x42, 0x51, 0x60, 0x80]
  | .recv => [0x00, 0x10, 0x21, 0x22, 0x41, 0x53]
  | .check => [0x00, 0x30, 0x54]
  | .disconnect => [0x00, 0x60]
  | _ => []

/-- R76, R77: the HOST byte, command and data of the frame an operation puts on the line; DISCONNECT's is its teardown
release. -/
def wireFrame (i : Instr) (host : Option Byte) : Option (Byte × Command × Bytes) :=
  match operation i with
  | .reghost id => some (Config.params.regHostField, 0x7FF0, id)
  | .assign => host.map fun h => (h, 0xFFF1, [0x01])
  | .mstatus => host.map fun h => (h, 0x7FF1, [])
  | .release => host.map fun h => (h, 0xFFF1, [0x00])
  | .disconnect => host.map fun h => (h, 0xFFF1, [0x00])
  | .send c data => host.map fun h => (h, c, data)
  | _ => none

/-- R160: the transitions of `FSM` each operation may make, besides none; a reset goes to DISCONNECTED. -/
def fsmMove (i : Instr) (before after : Fsm) : Prop :=
  match operation i with
  | .reghost _ => before = .disconnected ∧ after = .registered
  | .assign => before = .registered ∧ after = .master
  | .release => before = .master ∧ after = .registered
  | .disconnect => after = .disconnected
  | _ => False

/-! ### The rules of the operations a wire command can stand for -/

/-- R135: what `i` does as SEND of `c` and `data`: the order of its checks, the frame of the session's addresses, `OUT` and
`PAY_V`. -/
def SendRule (i : Instr) (c : Command) (data : Bytes) : Prop :=
  ∀ s : State, data.length ≤ 255 → s.fsm ≠ .registering →
    (s.out = true → exec i s = .next (s.answer (Response.error .busy s))) ∧
    (s.out = false → s.fsm = .disconnected → exec i s = .next (s.answer (Response.error .fsmState s))) ∧
    (s.out = false → s.fsm = .registered ∨ s.fsm = .master →
      ((c = 0x7FF0 ∨ c = 0xFFF1 ∨ c = 0x7FF1) → exec i s = .next (s.answer (Response.error .cmd s))) ∧
      (¬(c = 0x7FF0 ∨ c = 0xFFF1 ∨ c = 0x7FF1) → ∀ d h, s.dev = some d → s.host = some h →
        let f := encodeFrame d h c data
        (∀ ts, s.txDraws = .accepted :: ts →
          exec i s = .next ({ s with
            out := true, pay := none, txDraws := ts, trace := s.trace ++ [PortEvent.tx f f.length] }.answer (Response.base s))) ∧
        (∀ k ts, k < f.length → s.txDraws = .timeout k :: ts →
          exec i s = .next ({ s with txDraws := ts, trace := s.trace ++ [PortEvent.tx f k] }.answer
            (Response.error .timeoutTx s))) ∧
        (∀ s', txSend d h c data s = .ok () s' →
          exec i s = .next ({ s' with out := true, pay := none }.answer (Response.base s))) ∧
        (∀ e s', txSend d h c data s = .raised e s' →
          e = .timeoutTx ∧ s'.registers = s.registers ∧ exec i s = .next (s'.answer (Response.error e s)))))

/-- R170: what `i` does as REGHOST of `id`: admission, the registration frame with `REG_HOST_FIELD`, the one-byte reply
that becomes `HOST`, and DISCONNECTED after any failure. -/
def ReghostRule (i : Instr) (id : Bytes) : Prop :=
  ∀ s : State, id.length ≤ 255 → s.fsm ≠ .registering →
    (s.out = true → exec i s = .next (s.answer (Response.error .busy s))) ∧
    (s.out = false → s.fsm ≠ .disconnected → exec i s = .next (s.answer (Response.error .fsmState s))) ∧
    (s.out = false → s.fsm = .disconnected → s.dev = none →
      exec i s = .next (s.answer (Response.error .noDevice s))) ∧
    (∀ d, s.out = false → s.fsm = .disconnected → s.dev = some d →
      let field := Config.params.regHostField
      let f := encodeFrame d field 0x7FF0 id
      let s1 := { s with fsm := .registering }
      (∀ (rd rh : Byte) (rc : Command) (b : Byte) ts ds, s.txDraws = .accepted :: ts →
        s.rxDraws = (encodeFrame rd rh rc [b]).map .byte ++ ds →
        exec i s = .next ({ s.exchanged f (encodeFrame rd rh rc [b]) ts ds with
            host := some b, fsm := .registered }.answer
          { Response.base s with fsm := 2, hostV := true, host := b })) ∧
      (∀ rdata s', transact d field 0x7FF0 id s1 = .ok rdata s' → s'.registers = s1.registers ∧
        (∀ b, rdata = [b] →
          exec i s = .next ({ s' with host := some b, fsm := .registered }.answer
            { Response.base s with fsm := 2, hostV := true, host := b })) ∧
        (rdata.length ≠ 1 →
          exec i s = .next ({ s' with fsm := .disconnected }.answer (Response.error .badReplyLen s)))) ∧
      (∀ e s', transact d field 0x7FF0 id s1 = .raised e s' →
        TransactError e ∧ s'.registers = s1.registers ∧
          exec i s = .next ({ s' with fsm := .disconnected }.answer (Response.error e s))))

/-- R175: what `i` does as ASSIGN. -/
def AssignRule (i : Instr) : Prop :=
  ∀ s : State, s.fsm ≠ .registering →
    (s.out = true → exec i s = .next (s.answer (Response.error .busy s))) ∧
    (s.out = false → s.fsm ≠ .registered → exec i s = .next (s.answer (Response.error .fsmState s))) ∧
    (∀ d h, s.out = false → s.fsm = .registered → s.dev = some d → s.host = some h →
      let f := encodeFrame d h 0xFFF1 [0x01]
      (∀ (rd rh : Byte) (rc : Command) ts ds, s.txDraws = .accepted :: ts →
        s.rxDraws = (encodeFrame rd rh rc [0x00]).map .byte ++ ds →
        exec i s = .next ({ s.exchanged f (encodeFrame rd rh rc [0x00]) ts ds with fsm := .master }.answer
          { Response.base s with fsm := 3 })) ∧
      (∀ rdata s', transact d h 0xFFF1 [0x01] s = .ok rdata s' → s'.registers = s.registers ∧
        (rdata = [0x00] →
          exec i s = .next ({ s' with fsm := .master }.answer { Response.base s with fsm := 3 })) ∧
        (∀ b, rdata = [b] → b ≠ 0x00 →
          exec i s = .next (s'.answer { Response.base s with status := 0x30, devcode := b.setWidth 16 })) ∧
        (rdata.length ≠ 1 → exec i s = .next (s'.answer (Response.error .badReplyLen s)))) ∧
      (∀ e s', transact d h 0xFFF1 [0x01] s = .raised e s' →
        TransactError e ∧ s'.registers = s.registers ∧
          exec i s = .next (s'.answer (Response.error e s))))

/-- R180: what `i` does as MSTATUS: the flags and their warnings, with `FSM` unchanged. -/
def MstatusRule (i : Instr) : Prop :=
  ∀ s : State, s.fsm ≠ .registering →
    (s.out = true → exec i s = .next (s.answer (Response.error .busy s))) ∧
    (s.out = false → s.fsm = .disconnected → exec i s = .next (s.answer (Response.error .fsmState s))) ∧
    (∀ d h, s.out = false → s.fsm = .registered ∨ s.fsm = .master → s.dev = some d → s.host = some h →
      let f := encodeFrame d h 0x7FF1 []
      (∀ (rd rh : Byte) (rc : Command) (b : Byte) ts ds, s.txDraws = .accepted :: ts →
        s.rxDraws = (encodeFrame rd rh rc [b]).map .byte ++ ds →
        let flags := masterFlags Config.params.msBitMap b
        exec i s = .next ({ s.exchanged f (encodeFrame rd rh rc [b]) ts ds with ms := some flags }.answer
          { Response.base s with msf := flags, warn := mswarn flags s.fsm })) ∧
      (∀ rdata s', transact d h 0x7FF1 [] s = .ok rdata s' → s'.registers = s.registers ∧
        (∀ b, rdata = [b] →
          let flags := masterFlags Config.params.msBitMap b
          exec i s = .next ({ s' with ms := some flags }.answer
            { Response.base s with msf := flags, warn := mswarn flags s.fsm })) ∧
        (rdata.length ≠ 1 → exec i s = .next (s'.answer (Response.error .badReplyLen s)))) ∧
      (∀ e s', transact d h 0x7FF1 [] s = .raised e s' →
        TransactError e ∧ s'.registers = s.registers ∧
          exec i s = .next (s'.answer (Response.error e s))))

/-- R185: what `i` does as RELEASE. -/
def ReleaseRule (i : Instr) : Prop :=
  ∀ s : State, s.fsm ≠ .registering →
    (s.out = true → exec i s = .next (s.answer (Response.error .busy s))) ∧
    (s.out = false → s.fsm ≠ .master → exec i s = .next (s.answer (Response.error .fsmState s))) ∧
    (∀ d h, s.out = false → s.fsm = .master → s.dev = some d → s.host = some h →
      let f := encodeFrame d h 0xFFF1 [0x00]
      (∀ (rd rh : Byte) (rc : Command) ts ds, s.txDraws = .accepted :: ts →
        s.rxDraws = (encodeFrame rd rh rc [0x00]).map .byte ++ ds →
        exec i s = .next ({ s.exchanged f (encodeFrame rd rh rc [0x00]) ts ds with fsm := .registered }.answer
          { Response.base s with fsm := 2 })) ∧
      (∀ rdata s', transact d h 0xFFF1 [0x00] s = .ok rdata s' → s'.registers = s.registers ∧
        (rdata = [0x00] →
          exec i s = .next ({ s' with fsm := .registered }.answer { Response.base s with fsm := 2 })) ∧
        (∀ b, rdata = [b] → b ≠ 0x00 →
          exec i s = .next (s'.answer { Response.base s with status := 0x30, devcode := b.setWidth 16 })) ∧
        (rdata.length ≠ 1 → exec i s = .next (s'.answer (Response.error .badReplyLen s)))) ∧
      (∀ e s', transact d h 0xFFF1 [0x00] s = .raised e s' →
        TransactError e ∧ s'.registers = s.registers ∧
          exec i s = .next (s'.answer (Response.error e s))))

end Sys2Proof.Machine

open Sys2Proof Sys2Proof.Machine

/-! ### The codec -/

/-- R100: the checksum is the sum mod 256; it fits a 17-bit accumulator, equals the reduction after each addition, and
is the sum of a frame's bytes without STX and CHK. -/
def Obligations.ChecksumIsTheModularSum : Prop :=
  (∀ (n dev host msb lsb : Byte) (data : Bytes),
    (checksum n dev host msb lsb data).toNat =
      (n.toNat + dev.toNat + host.toNat + msb.toNat + lsb.toNat + (data.map BitVec.toNat).sum) % 256 ∧
    checksum n dev host msb lsb data = data.foldl (· + ·) (n + dev + host + msb + lsb) ∧
    (data.length ≤ 255 →
      n.toNat + dev.toNat + host.toNat + msb.toNat + lsb.toNat + (data.map BitVec.toNat).sum ≤ 66300)) ∧
  (5 * (0xFF : Byte).toNat + ((List.replicate 255 (0xFF : Byte)).map BitVec.toNat).sum = 66300 ∧ 66300 < 2 ^ 17) ∧
  (∀ (dev host : Byte) (cmd : Command) (data : Bytes),
    ∃ body chk, encodeFrame dev host cmd data = 0xBB :: (body ++ [chk]) ∧
      chk.toNat = (body.map BitVec.toNat).sum % 256)

/-- R72, R101: a frame is `7 + n` bytes, and each field stands at its offset of R70's layout. -/
def Obligations.FrameFieldsStandAtTheirOffsets : Prop :=
  ∀ (dev host : Byte) (cmd : Command) (data : Bytes), data.length ≤ 255 →
    let f := encodeFrame dev host cmd data
    f.length = 7 + data.length ∧ f[0]? = some 0xBB ∧ f[1]? = some (BitVec.ofNat 8 data.length) ∧
    (∀ b, f[1]? = some b → b.toNat = data.length) ∧
    f[2]? = some dev ∧ f[3]? = some host ∧ f[4]? = some (cmd.extractLsb' 8 8) ∧ f[5]? = some (cmd.extractLsb' 0 8) ∧
    (∀ i, i < data.length → f[6 + i]? = data[i]?) ∧
    f[6 + data.length]? =
      some (checksum (BitVec.ofNat 8 data.length) dev host (cmd.extractLsb' 8 8) (cmd.extractLsb' 0 8) data)

/-- R102: the decoder's checks on a byte sequence, by index and in the rule's order. -/
def Obligations.DecodeMakesItsChecksInOrder : Prop :=
  ∀ raw : Bytes,
    let at_ := fun i : Nat => raw.getD i 0
    let n := (at_ 1).toNat
    let data := (raw.drop 6).take n
    let k := checksum (at_ 1) (at_ 2) (at_ 3) (at_ 4) (at_ 5) data
    decodeFrame raw =
      if raw.length = 0 then .error .truncated
      else if at_ 0 ≠ 0xBB then .error .badStx
      else if raw.length < 7 then .error .truncated
      else if raw.length < 7 + n then .error .truncated
      else if raw.length > 7 + n then .error .overlength
      else if at_ (6 + n) ≠ k then .error (.checksum (at_ (6 + n)) k)
      else .ok ⟨at_ 2, at_ 3, BitVec.ofNat 16 ((at_ 4).toNat * 256 + (at_ 5).toNat), data⟩

/-- R106: decoding an encoded frame gives its fields back. -/
def Obligations.DecodeOfEncodeGivesTheFields : Prop :=
  ∀ (dev host : Byte) (cmd : Command) (data : Bytes), data.length ≤ 255 →
    decodeFrame (encodeFrame dev host cmd data) = .ok ⟨dev, host, cmd, data⟩

/-- R107: one changed byte of a frame makes `decode` fail, with the error of the rule's table. -/
def Obligations.OneChangedByteIsDetected : Prop :=
  ∀ (dev host : Byte) (cmd : Command) (data : Bytes) (i : Nat) (b : Byte), data.length ≤ 255 →
    let f := encodeFrame dev host cmd data
    i < f.length → f[i]? ≠ some b →
    (i = 0 → decodeFrame (f.set i b) = .error .badStx) ∧
    (i = 1 → data.length < b.toNat → decodeFrame (f.set i b) = .error .truncated) ∧
    (i = 1 → b.toNat < data.length → decodeFrame (f.set i b) = .error .overlength) ∧
    (2 ≤ i → ∃ c k, c ≠ k ∧ decodeFrame (f.set i b) = .error (.checksum c k))

/-- R109: a change that leaves the sum of the summed bytes the same mod 256 is accepted with the changed fields; a
permutation of the summed bytes is such a change. -/
def Obligations.SumPreservingChangesAreAccepted : Prop :=
  (∀ (d d' h h' : Byte) (c c' : Command) (data data' : Bytes), data'.length = data.length → data.length ≤ 255 →
    (d.toNat + h.toNat + (c.extractLsb' 8 8).toNat + (c.extractLsb' 0 8).toNat + (data.map BitVec.toNat).sum) % 256 =
      (d'.toNat + h'.toNat + (c'.extractLsb' 8 8).toNat + (c'.extractLsb' 0 8).toNat +
        (data'.map BitVec.toNat).sum) % 256 →
    decodeFrame ((encodeFrame d' h' c' data').dropLast ++ (encodeFrame d h c data).drop (6 + data.length)) =
      .ok ⟨d', h', c', data'⟩) ∧
  (∀ (n n' d d' h h' m m' l l' : Byte) (data data' : Bytes),
    List.Perm (n :: d :: h :: m :: l :: data) (n' :: d' :: h' :: m' :: l' :: data') →
    checksum n d h m l data = checksum n' d' h' m' l' data')

/-- R105: the stream receiver and `decode` agree on the bytes a receive consumed without a timeout. -/
def Obligations.ReceiverAgreesWithDecode : Prop :=
  (∀ (s s' : State) (f : Frame), rxFrame s = .ok f s' →
    ∃ bs : Bytes, s'.trace = s.trace ++ bs.map PortEvent.rx ∧ decodeFrame bs = .ok f) ∧
  (∀ (s s' : State) (e : Err) (bs : Bytes), rxFrame s = .raised e s' → s'.trace = s.trace ++ bs.map PortEvent.rx →
    decodeFrame bs = .error e) ∧
  (∀ (s s' : State), rxFrame s ≠ .raised .overlength s') ∧
  (∀ raw : Bytes, decodeFrame raw ≠ .error .timeoutRx ∧ decodeFrame raw ≠ .error .timeoutTx)

/-- R108: on the stream a LEN byte changed to zero is accepted when the first data byte happens to be the checksum of
the shorter frame; the rest of the sender's frame stays in the channel. The last clause is the rule's own example. -/
def Obligations.CorruptedLengthCanBeAccepted : Prop :=
  (∀ (s : State) (d h : Byte) (c : Command) (rest : Bytes) (ds : List RxDraw), rest.length ≤ 254 →
    let k := checksum 0 d h (c.extractLsb' 8 8) (c.extractLsb' 0 8) []
    s.rxDraws = ((encodeFrame d h c (k :: rest)).set 1 0).map .byte ++ ds →
    ∃ s' left, rxFrame s = .ok ⟨d, h, c, []⟩ s' ∧ left.length = rest.length + 1 ∧
      s'.rxDraws = left.map .byte ++ ds ∧ encodeFrame d h c (k :: rest) = (encodeFrame d h c (k :: rest)).take 7 ++ left) ∧
  (∀ (s : State) (ds : List RxDraw),
    encodeFrame 0xC8 0x01 0x0101 [0xCB] = [0xBB, 0x01, 0xC8, 0x01, 0x01, 0x01, 0xCB, 0x97] ∧
    (s.rxDraws = ([0xBB, 0x00, 0xC8, 0x01, 0x01, 0x01, 0xCB, 0x97] : Bytes).map .byte ++ ds →
      ∃ s', rxFrame s = .ok ⟨0xC8, 0x01, 0x0101, []⟩ s' ∧ s'.rxDraws = .byte 0x97 :: ds))

/-! ### The ports -/

/-- R103: what a receive answers, consumes and leaves, on each shape of stream. -/
def Obligations.ReceiveTakesOneFrame : Prop :=
  ∀ (s : State) (ds : List RxDraw),
    (s.rxDraws = .timeout :: ds →
      rxFrame s = .raised .timeoutRx { s with rxDraws := ds, trace := s.trace ++ [.rxTimeout] }) ∧
    (∀ b : Byte, b ≠ 0xBB → s.rxDraws = .byte b :: ds →
      rxFrame s = .raised .badStx { s with rxDraws := ds, trace := s.trace ++ [.rx b] }) ∧
    (∀ (n d h m l c : Byte) (data : Bytes), data.length = n.toNat →
      let frame : Bytes := [0xBB, n, d, h, m, l] ++ data ++ [c]
      let k := checksum n d h m l data
      (∀ j, 0 < j → j < frame.length → s.rxDraws = (frame.take j).map .byte ++ .timeout :: ds →
        rxFrame s = .raised .truncated
          { s with rxDraws := ds, trace := s.trace ++ (frame.take j).map .rx ++ [.rxTimeout] }) ∧
      (s.rxDraws = frame.map .byte ++ ds →
        rxFrame s =
          if c ≠ k then .raised (.checksum c k) { s with rxDraws := ds, trace := s.trace ++ frame.map .rx }
          else .ok ⟨d, h, BitVec.ofNat 16 (m.toNat * 256 + l.toNat), data⟩
            { s with rxDraws := ds, trace := s.trace ++ frame.map .rx }))

/-- R104: what a transmission answers and what reaches the TX stream; the last clause is the rule's own example. -/
def Obligations.TransmitOffersOneFrame : Prop :=
  ∀ (s : State) (dev hostbyte : Byte) (cmd : Command) (data : Bytes) (ts : List TxDraw),
    let f := encodeFrame dev hostbyte cmd data
    (s.txDraws = .accepted :: ts →
      ∃ s', txSend dev hostbyte cmd data s = .ok () s' ∧ s'.trace = s.trace ++ [PortEvent.tx f f.length] ∧
        s'.txStream = s.txStream ++ f ∧ s'.registers = s.registers) ∧
    (∀ k, k < f.length → s.txDraws = .timeout k :: ts →
      ∃ s', txSend dev hostbyte cmd data s = .raised .timeoutTx s' ∧ s'.trace = s.trace ++ [PortEvent.tx f k] ∧
        s'.txStream = s.txStream ++ f.take k ∧ s'.registers = s.registers) ∧
    encodeFrame 0xC8 0x01 0x0101 [0x01] = [0xBB, 0x01, 0xC8, 0x01, 0x01, 0x01, 0x01, 0xCD]

/-! ### Requests -/

/-- R76, R80 to R82: every well-formed instruction is what its encoding decodes to. For a wire command this is the
model's choice (log entry 1). -/
def Obligations.DecodeOfEncodeGivesTheInstruction : Prop :=
  ∀ i : Instr, i.wf = true → decode i.encode = .ok i

/-- R76, R80 to R83: what decodes is well formed and has that one encoding. For a wire command this is the model's
choice (log entry 1). -/
def Obligations.EncodingsAreUnique : Prop :=
  ∀ (it : Item) (i : Instr), decode it = .ok i → i.wf = true ∧ i.encode = it

/-- R81, R82: a deliverable request decodes exactly when it has a row of the opcode table, to that row's operation. -/
def Obligations.RequestsFollowTheOpcodeTable : Prop :=
  ∀ (w : RequestWord) (lane : Bytes), laneExact w lane = true →
    (∀ i, decode (.request w lane) = .ok i →
      ∃ row ∈ requestTable, w &&& row.mask = row.pattern ∧ row.mnemonic = i.mnemonic) ∧
    (∀ row ∈ requestTable, w &&& row.mask = row.pattern →
      ∃ i, decode (.request w lane) = .ok i ∧ i.mnemonic = row.mnemonic)

/-- R83 (the request layer): a reserved or malformed word is answered `STATUS = 0x70` with no other effect. -/
def Obligations.IllegalRequestsHaveNoOtherEffect : Prop :=
  ∀ (s : State) (w : RequestWord) (lane : Bytes) (ins : List Input),
    let op := (w.extractLsb' 28 4).toNat
    let rsv := w.extractLsb' 24 4
    let cmd := w.extractLsb' 8 16
    let len := w.extractLsb' 0 8
    s.inputs = .item (.request w lane) :: ins → s.fsm ≠ .registering →
    (op = 0 ∨ 0xA ≤ op ∨ rsv ≠ 0 ∨ (op ≠ 6 ∧ cmd ≠ 0) ∨
      ((op = 3 ∨ op = 4 ∨ op = 5 ∨ op = 7 ∨ op = 8 ∨ op = 9) ∧ len ≠ 0)) →
    step s = .next { s with
      inputs := ins
      responses := s.responses ++ [{ Response.base s with status := 0x70 }] }

/-- R81, R82 and the spec's own request words decode to the operations they stand for (95_test_vectors.md). For a wire
command this is the model's choice (log entry 1). -/
def Obligations.SpecWordsDecode : Prop :=
  decode (.request 0x100000C8 []) = .ok (.config 0xC8) ∧
  decode (.request 0x20000007 [0x53, 0x77, 0x65, 0x65, 0x70, 0x4D, 0x65]) =
    .ok (.reghost [0x53, 0x77, 0x65, 0x65, 0x70, 0x4D, 0x65]) ∧
  decode (.request 0x30000000 []) = .ok .assign ∧
  decode (.request 0x60820702 [0x01, 0x01]) = .ok (.send 0x8207 [0x01, 0x01]) ∧
  decode (.request 0x90000000 []) = .ok .disconnect ∧
  decode (.frameCommand 0xFFF1 [0x01]) = .ok .wireMasterSetAssign ∧
  decode (.frameCommand 0x8207 [0x01, 0x01]) = .ok (.wireDeviceSet 0x8207 [0x01, 0x01])

/-- R21, R58, R130, R214: a step takes the next input whole: nothing while idle, the decoded instruction, a reset, or
a request the port cannot deliver, on which it stops. The stop and the idle step are the model's choice (log entries 6
and 12). -/
def Obligations.StepRunsTheDecodedInstruction : Prop :=
  ∀ (s : State) (ins : List Input),
    (s.inputs = [] → step s = .next s) ∧
    (∀ it i, s.inputs = .item it :: ins → decode it = .ok i → step s = exec i { s with inputs := ins }) ∧
    (∀ it, s.inputs = .item it :: ins → decode it = .error .laneMismatch → step s = .fault .laneMismatch)

/-! ### Reset -/

/-- R230, R231: reset puts every register at its reset value, with no port traffic and no response. -/
def Obligations.ResetRestoresTheRegisters : Prop :=
  (State.reset.fsm = .disconnected ∧ State.reset.dev = none ∧ State.reset.host = none ∧ State.reset.out = false ∧
    State.reset.pay = none ∧ State.reset.ms = none ∧ step State.reset = .next State.reset) ∧
  (∀ (s : State) (ins : List Input), s.inputs = .reset :: ins →
    step s = .next { s with
      inputs := ins, fsm := .disconnected, dev := none, host := none, out := false, pay := none, ms := none })

/-- R232: a reset during an operation aborts it without a response, and port bytes stay sent or consumed: outside the
port calls, for every request; and inside them, for every operation that has some (DISCONNECT's `catch` does not hold a
reset). `ResetFallsAnywhereInAPortCall` says which draws abort a port procedure. The last clause writes ASSIGN's bytes
out. The points at which reset falls are the model's choice (log entry 7), as is what a wire command does (log
entry 1). -/
def Obligations.ResetAbortsTheOperation : Prop :=
  (∀ (s : State) (ins : List Input) (it : Item), s.inputs = .aborted it :: ins →
    ∃ t, step s = .next t ∧ AbortedByReset s t ∧ t.trace = s.trace ∧ t.inputs = ins) ∧
  (∀ (i : Instr) (s p : State), s.fsm ≠ .registering →
    (operation i = .recv → s.out = true → rxFrame { s with out := false, pay := none } = .aborted p →
      AbortsIn i s p) ∧
    (∀ id d, operation i = .reghost id → id.length ≤ 255 → s.out = false → s.fsm = .disconnected → s.dev = some d →
      transact d Config.params.regHostField 0x7FF0 id { s with fsm := .registering } = .aborted p →
      AbortsIn i s p) ∧
    (∀ d h, s.out = false → s.dev = some d → s.host = some h →
      (∀ c data, operation i = .send c data → data.length ≤ 255 → ¬(c = 0x7FF0 ∨ c = 0xFFF1 ∨ c = 0x7FF1) →
        s.fsm = .registered ∨ s.fsm = .master → txSend d h c data s = .aborted p → AbortsIn i s p) ∧
      (operation i = .assign → s.fsm = .registered → transact d h 0xFFF1 [0x01] s = .aborted p → AbortsIn i s p) ∧
      (operation i = .mstatus → s.fsm = .registered ∨ s.fsm = .master → transact d h 0x7FF1 [] s = .aborted p →
        AbortsIn i s p) ∧
      (operation i = .release ∨ operation i = .disconnect → s.fsm = .master →
        transact d h 0xFFF1 [0x00] s = .aborted p → AbortsIn i s p))) ∧
  ∀ (s : State) (d h : Byte) (ts : List TxDraw) (ds : List RxDraw),
    let f := encodeFrame d h 0xFFF1 [0x01]
    (s.fsm = .registered → s.out = false → s.dev = some d → s.host = some h →
      (∀ k, k ≤ f.length → s.txDraws = .reset k :: ts →
        ∃ t, exec .assign s = .next t ∧ AbortedByReset s t ∧ t.trace = s.trace ++ [PortEvent.tx f k] ∧
          t.txStream = s.txStream ++ f.take k) ∧
      (s.txDraws = .accepted :: ts → s.rxDraws = .reset :: ds →
        ∃ t, exec .assign s = .next t ∧ AbortedByReset s t ∧ t.trace = s.trace ++ [PortEvent.tx f f.length] ∧
          t.rxDraws = ds) ∧
      (∀ (rd rh : Byte) (rc : Command) (b : Byte), s.txDraws = .accepted :: ts →
        s.rxDraws = ((encodeFrame rd rh rc [b]).dropLast).map .byte ++
          (((encodeFrame rd rh rc [b]).drop 7).map .byteReset ++ ds) →
        ∃ t, exec .assign s = .next t ∧ AbortedByReset s t ∧
          t.trace = s.trace ++ PortEvent.tx f f.length :: (encodeFrame rd rh rc [b]).map PortEvent.rx ∧ t.rxDraws = ds))

/-- R232: the draws on which a port procedure is aborted, and what is then sent or consumed: a reset after any number of
the bytes of a transmission; a reset before any byte of a receive, or right after the byte taken there, whatever that
byte is; and either half of a transaction. That these are the points is the model's choice (log entry 7). -/
def Obligations.ResetFallsAnywhereInAPortCall : Prop :=
  (∀ (s : State) (d h : Byte) (c : Command) (data : Bytes) (k : Nat) (ts : List TxDraw),
    let f := encodeFrame d h c data
    k ≤ f.length → s.txDraws = .reset k :: ts →
    txSend d h c data s = .aborted { s with txDraws := ts, trace := s.trace ++ [.tx f k] }) ∧
  (∀ (s : State) (n d h m l c : Byte) (data : Bytes) (j : Nat) (ds : List RxDraw), data.length = n.toNat →
    let frame : Bytes := [0xBB, n, d, h, m, l] ++ data ++ [c]
    j < frame.length →
    (s.rxDraws = (frame.take j).map .byte ++ .reset :: ds →
      rxFrame s = .aborted { s with rxDraws := ds, trace := s.trace ++ (frame.take j).map .rx }) ∧
    (∀ b, s.rxDraws = (frame.take j).map .byte ++ .byteReset b :: ds →
      rxFrame s = .aborted { s with rxDraws := ds, trace := s.trace ++ (frame.take j).map .rx ++ [.rx b] })) ∧
  (∀ (s s1 p : State) (d h : Byte) (c : Command) (data : Bytes),
    (txSend d h c data s = .aborted p → transact d h c data s = .aborted p) ∧
    (txSend d h c data s = .ok () s1 → rxFrame s1 = .aborted p → transact d h c data s = .aborted p))

/-! ### The operations -/

/-- R131: CONFIG. -/
def Obligations.ConfigFollowsItsRule : Prop :=
  (∀ dev : Byte, decode (.request (BitVec.ofNat 32 (0x10000000 + dev.toNat)) []) = .ok (.config dev)) ∧
  ∀ (s : State) (dev : Byte), s.fsm ≠ .registering →
    (s.out = true → exec (.config dev) s = .next (s.answer (Response.error .busy s))) ∧
    (s.out = false → s.fsm ≠ .disconnected →
      exec (.config dev) s = .next (s.answer (Response.error .fsmState s))) ∧
    (s.out = false → s.fsm = .disconnected →
      exec (.config dev) s = .next ({ s with dev := some dev }.answer (Response.base s)))

/-- R135: SEND. -/
def Obligations.SendFollowsItsRule : Prop :=
  ∀ (c : Command) (data : Bytes),
    SendRule (.send c data) c data ∧
    (data.length ≤ 255 →
      decode (.request (BitVec.ofNat 32 (0x60000000 + c.toNat * 256 + data.length)) data) = .ok (.send c data))

/-- R140: RECV: it needs an outstanding request, retires it whatever the outcome, and accepts any correct frame. -/
def Obligations.RecvFollowsItsRule : Prop :=
  decode (.request 0x70000000 []) = .ok .recv ∧
  ∀ s : State, s.fsm ≠ .registering →
    (s.out = false → exec .recv s = .next (s.answer (Response.error .notOutstanding s))) ∧
    (s.out = true →
      (∀ (d h : Byte) (c : Command) (data : Bytes) (ds : List RxDraw), data.length ≤ 255 →
        s.rxDraws = (encodeFrame d h c data).map .byte ++ ds →
        exec .recv s = .next ({ s with
          out := false
          pay := some ⟨d, h, c, data⟩
          rxDraws := ds
          trace := s.trace ++ (encodeFrame d h c data).map PortEvent.rx }.answer { Response.base s with
            rdev := d, rhost := h, rcmd := c, plen := BitVec.ofNat 8 data.length, payload := data })) ∧
      (∀ f s', rxFrame { s with out := false, pay := none } = .ok f s' →
        exec .recv s = .next ({ s' with pay := some f }.answer { Response.base s with
          rdev := f.device, rhost := f.host, rcmd := f.command
          plen := BitVec.ofNat 8 f.data.length, payload := f.data })) ∧
      (∀ e s', rxFrame { s with out := false, pay := none } = .raised e s' →
        (e = .timeoutRx ∨ e = .badStx ∨ e = .truncated ∨ ∃ c k, c ≠ k ∧ e = .checksum c k) ∧
        s'.out = false ∧ s'.pay = none ∧ exec .recv s = .next (s'.answer (Response.error e s))))

/-- R145: CHECK: the payload passes unchanged, or the detector's code is reported; no register and no port changes. -/
def Obligations.CheckFollowsItsRule : Prop :=
  decode (.request 0x80000000 []) = .ok .check ∧
  ∀ s : State, s.fsm ≠ .registering →
    (s.pay = none → exec .check s = .next (s.answer (Response.error .noPayload s))) ∧
    (∀ f, s.pay = some f → exec .check s = .next (s.answer (match Config.params.deverr f.data with
      | none => { Response.base s with plen := BitVec.ofNat 8 f.data.length, payload := f.data }
      | some code => { Response.base s with status := 0x30, devcode := code.setWidth 16 })))

/-- R170: REGHOST. -/
def Obligations.ReghostFollowsItsRule : Prop :=
  ∀ id : Bytes,
    ReghostRule (.reghost id) id ∧
    (id.length ≤ 255 → decode (.request (BitVec.ofNat 32 (0x20000000 + id.length)) id) = .ok (.reghost id))

/-- R175: ASSIGN. -/
def Obligations.AssignFollowsItsRule : Prop :=
  AssignRule .assign ∧ decode (.request 0x30000000 []) = .ok .assign

/-- R180: MSTATUS. -/
def Obligations.MstatusFollowsItsRule : Prop :=
  MstatusRule .mstatus ∧ decode (.request 0x40000000 []) = .ok .mstatus

/-- R185: RELEASE. -/
def Obligations.ReleaseFollowsItsRule : Prop :=
  ReleaseRule .release ∧ decode (.request 0x50000000 []) = .ok .release

/-- R190: DISCONNECT: no frame outside MASTER; in MASTER one teardown release whose failure is a warning. -/
def Obligations.DisconnectFollowsItsRule : Prop :=
  decode (.request 0x90000000 []) = .ok .disconnect ∧
  ∀ s : State, s.fsm ≠ .registering →
    let ended := fun (s' : State) => { s' with fsm := .disconnected, host := none, ms := none, pay := none }
    let answer := fun (warn : BitVec 4) =>
      { Response.base s with fsm := 0, hostV := false, host := 0, warn := warn }
    (s.out = true → exec .disconnect s = .next (s.answer (Response.error .busy s))) ∧
    (s.out = false → s.fsm ≠ .master → exec .disconnect s = .next ((ended s).answer (answer 0b0000))) ∧
    (∀ d h, s.out = false → s.fsm = .master → s.dev = some d → s.host = some h →
      let f := encodeFrame d h 0xFFF1 [0x00]
      (∀ (rd rh : Byte) (rc : Command) ts ds, s.txDraws = .accepted :: ts →
        s.rxDraws = (encodeFrame rd rh rc [0x00]).map .byte ++ ds →
        exec .disconnect s =
          .next ((ended (s.exchanged f (encodeFrame rd rh rc [0x00]) ts ds)).answer (answer 0b0000))) ∧
      (∀ rdata s', transact d h 0xFFF1 [0x00] s = .ok rdata s' → s'.registers = s.registers ∧
        exec .disconnect s = .next ((ended s').answer (answer (if rdata = [0x00] then 0b0000 else 0b1000)))) ∧
      (∀ e s', transact d h 0xFFF1 [0x00] s = .raised e s' → s'.registers = s.registers ∧
        exec .disconnect s = .next ((ended s').answer (answer 0b1000))))

/-- R76 (log entry 1, the model's choice of what a table row for a frame command means): each wire command follows the
rule of the operation that sends it, and does on every state what that operation does. -/
def Obligations.WireCommandsFollowTheirSendersRules : Prop :=
  (∀ id : Bytes, ReghostRule (.wireRegHost id) id) ∧ AssignRule .wireMasterSetAssign ∧ MstatusRule .wireMasterGet ∧
  ReleaseRule .wireMasterSetRelease ∧
  (∀ (c : Command) (data : Bytes), SendRule (.wireDeviceGet c data) c data ∧ SendRule (.wireDeviceSet c data) c data) ∧
  ∀ (i : Instr) (s : State), exec i s = exec (operation i) s

/-! ### Flags -/

/-- R78, R27: flag 0 is bit 0 of the status byte under every map; the others are the map's bits; under the default map
bits 7 to 4 are ignored. -/
def Obligations.MasterFlagsComeFromTheirBits : Prop :=
  (∀ (map : MsBitMap) (b : Byte),
    (masterFlags map b).getLsbD 0 = b.getLsbD 0 ∧
    (masterFlags map b).getLsbD 1 = b.getLsbD map.remoteEnabled.val ∧
    (masterFlags map b).getLsbD 2 = b.getLsbD map.hostRegistered.val ∧
    (masterFlags map b).getLsbD 3 = b.getLsbD map.otherMasterPresent.val) ∧
  (∀ b : Byte, masterFlags MsBitMap.standard b = b.extractLsb' 0 4)

/-- R181: the warning mask, bit by bit. -/
def Obligations.WarningMaskIsComputedFromFlagsAndState : Prop :=
  ∀ (f : BitVec 4) (fsm : Fsm),
    ((mswarn f fsm).getLsbD 0 = true ↔ f.getLsbD 0 = true ∧ f.getLsbD 3 = true) ∧
    ((mswarn f fsm).getLsbD 1 = true ↔ f.getLsbD 0 = true ∧ f.getLsbD 2 = false) ∧
    ((mswarn f fsm).getLsbD 2 = true ↔ ¬(f.getLsbD 0 = true ↔ fsm = .master)) ∧
    (mswarn f fsm).getLsbD 3 = false

/-! ### Responses and errors -/

/-- R85, R200 to R202: the status byte of every error and what its response records. -/
def Obligations.ErrorResponsesCarryTheirCodes : Prop :=
  ∀ (s : State) (c k : Byte) (code : BitVec 16),
    Response.error (.checksum c k) s = { Response.base s with status := 0x10, chkRx := c, chkCalc := k } ∧
    Response.error .badStx s = { Response.base s with status := 0x21 } ∧
    Response.error .truncated s = { Response.base s with status := 0x22 } ∧
    Response.error .badReplyLen s = { Response.base s with status := 0x24 } ∧
    Response.error (.device code) s = { Response.base s with status := 0x30, devcode := code } ∧
    Response.error .timeoutRx s = { Response.base s with status := 0x41 } ∧
    Response.error .timeoutTx s = { Response.base s with status := 0x42 } ∧
    Response.error .fsmState s = { Response.base s with status := 0x51 } ∧
    Response.error .noDevice s = { Response.base s with status := 0x52 } ∧
    Response.error .notOutstanding s = { Response.base s with status := 0x53 } ∧
    Response.error .noPayload s = { Response.base s with status := 0x54 } ∧
    Response.error .busy s = { Response.base s with status := 0x60 } ∧
    Response.error .illegal s = { Response.base s with status := 0x70 } ∧
    Response.error .cmd s = { Response.base s with status := 0x80 } ∧
    Err.overlength.status = 0x23

/-- R84, R130: each operation gives exactly one response, with the snapshot of `FSM`, `HOST_V` and `HOST` after the
operation and every other field zero unless the table names it; only a reset takes the response away (R232). For a
wire command this is the model's choice (log entry 1). -/
def Obligations.EveryOperationAnswersOnce : Prop :=
  ∀ (i : Instr) (s t : State), exec i s = .next t →
    AbortedByReset s t ∨ ∃ r, Answered s t r ∧
      r.fsm = t.fsm.code ∧ r.hostV = t.host.isSome ∧ r.host = t.host.getD 0 ∧
      (r.classCode ≠ 0x3 → r.devcode = 0) ∧
      (r.classCode ≠ 0x1 → r.chkRx = 0 ∧ r.chkCalc = 0) ∧
      (r.msf ≠ 0 → operation i = .mstatus ∧ r.status = 0) ∧
      (operation i = .mstatus → r.status = 0 → t.ms = some r.msf) ∧
      (¬(operation i = .recv ∧ r.status = 0) → r.rdev = 0 ∧ r.rhost = 0 ∧ r.rcmd = 0) ∧
      (¬((operation i = .recv ∨ operation i = .check) ∧ r.status = 0) → r.plen = 0 ∧ r.payload = []) ∧
      (operation i = .recv → r.status = 0 → t.pay = some ⟨r.rdev, r.rhost, r.rcmd, r.payload⟩) ∧
      (operation i = .check → r.status = 0 → ∃ f, t.pay = some f ∧ r.payload = f.data) ∧
      r.plen = BitVec.ofNat 8 r.payload.length

/-- R85, R200 to R202: an operation reports only the status values the tables give it. For a wire command this is the
model's choice (log entry 1). -/
def Obligations.OperationsReportOnlyTheirStatus : Prop :=
  ∀ (i : Instr) (s t : State) (r : Response), exec i s = .next t → Answered s t r → r.status ∈ possibleStatus i

/-- R209: warnings come from MSTATUS (bits 0 to 2) and DISCONNECT (bit 3) only, and never with an error. For a wire
command this is the model's choice (log entry 1). -/
def Obligations.WarningsNeverChangeTheStatus : Prop :=
  ∀ (i : Instr) (s t : State) (r : Response), exec i s = .next t → Answered s t r → r.warn ≠ 0 →
    r.status = 0 ∧
    ((operation i = .mstatus ∧ r.warn.getLsbD 3 = false) ∨ (operation i = .disconnect ∧ r.warn = 0b1000))

/-- R161, R203: an operation is refused in exactly the cases of the table, with that case's error, no register changed
and no port touched; an admitted one reports no admission class. For a wire command this is the model's choice (log
entry 1). -/
def Obligations.AdmissionFollowsTheTable : Prop :=
  ∀ (i : Instr) (s : State), i.wf = true → s.fsm ≠ .registering →
    (∀ e, admissionError i s = some e → exec i s = .next (s.answer (Response.error e s))) ∧
    (admissionError i s = none → ∀ t r, exec i s = .next t → Answered s t r → ¬AdmissionClass r.classCode)

/-- R205: what an error changes, class by class and operation by operation. For a wire command this is the model's
choice (log entry 1). -/
def Obligations.ErrorsChangeOnlyWhatTheTableSays : Prop :=
  ∀ (i : Instr) (s t : State) (r : Response), exec i s = .next t → Answered s t r → r.status ≠ 0 →
    (AdmissionClass r.classCode → t = s.answer r) ∧
    (∀ c data, operation i = .send c data → t.registers = s.registers) ∧
    (operation i = .recv → ¬AdmissionClass r.classCode →
      t.registers = { s.registers with out := false, pay := none }) ∧
    (∀ id, operation i = .reghost id → ¬AdmissionClass r.classCode →
      t.registers = { s.registers with fsm := .disconnected }) ∧
    (operation i = .assign ∨ operation i = .mstatus ∨ operation i = .release → t.registers = s.registers) ∧
    (operation i = .check → t = s.answer r)

/-! ### Frames -/

/-- R23 to R27, 41_facade.md: what CONFIG, SEND, RECV and CHECK (and the device commands) leave unchanged, unless a
reset aborts them: every register but the named ones, the client's requests, and the streams but for the named calls.
For a wire command this is the model's choice (log entry 1). -/
def Obligations.FacadeOperationsKeepTheRest : Prop :=
  ∀ (i : Instr) (s t : State), exec i s = .next t → AbortedByReset s t ∨
    (∀ d, operation i = .config d → t.fsm = s.fsm ∧ t.host = s.host ∧ t.out = s.out ∧ t.pay = s.pay ∧ t.ms = s.ms ∧
      t.inputs = s.inputs ∧ t.trace = s.trace) ∧
    (∀ c data, operation i = .send c data → t.fsm = s.fsm ∧ t.dev = s.dev ∧ t.host = s.host ∧ t.ms = s.ms ∧
      t.inputs = s.inputs ∧ t.rxStream = s.rxStream) ∧
    (operation i = .recv → t.fsm = s.fsm ∧ t.dev = s.dev ∧ t.host = s.host ∧ t.ms = s.ms ∧ t.inputs = s.inputs ∧
      t.txStream = s.txStream) ∧
    (operation i = .check → t.registers = s.registers ∧ t.inputs = s.inputs ∧ t.trace = s.trace)

/-- R23 to R27, 42_arbitration.md: what the arbitration operations (and their wire commands) leave unchanged, unless a
reset aborts them. For a wire command this is the model's choice (log entry 1). -/
def Obligations.ArbitrationOperationsKeepTheRest : Prop :=
  ∀ (i : Instr) (s t : State), exec i s = .next t → AbortedByReset s t ∨
    (∀ id, operation i = .reghost id → t.dev = s.dev ∧ t.out = s.out ∧ t.pay = s.pay ∧ t.ms = s.ms ∧
      t.inputs = s.inputs) ∧
    (operation i = .assign ∨ operation i = .release → t.dev = s.dev ∧ t.host = s.host ∧ t.out = s.out ∧
      t.pay = s.pay ∧ t.ms = s.ms ∧ t.inputs = s.inputs) ∧
    (operation i = .mstatus → t.fsm = s.fsm ∧ t.dev = s.dev ∧ t.host = s.host ∧ t.out = s.out ∧ t.pay = s.pay ∧
      t.inputs = s.inputs) ∧
    (operation i = .disconnect → t.dev = s.dev ∧ t.out = s.out ∧ t.inputs = s.inputs)

/-! ### Whole-machine rules -/

/-- R61, R111, R242: an operation makes at most one `TxFrame` call, before at most 262 `RxByte` calls, and never
erases a port event. -/
def Obligations.OneFrameOutThenBoundedBytesIn : Prop :=
  ∀ (i : Instr) (s t : State), exec i s = .next t →
    ∃ (out : List PortEvent) (rx : List PortEvent), t.trace = s.trace ++ out ++ rx ∧ out.length ≤ 1 ∧ rx.length ≤ 262 ∧
      (∀ ev ∈ out, ∃ f k, ev = .tx f k ∧ k ≤ f.length) ∧ (∀ ev ∈ rx, (∃ b, ev = .rx b) ∨ ev = .rxTimeout)

/-- R23, R24, R76, R77, R240: every frame an operation offers carries the session's device address, its host address
(REG_HOST_FIELD for registration), and the command and data of the wire command map. For a wire command this is the
model's choice (log entry 1). -/
def Obligations.EveryFrameFollowsTheWireCommandMap : Prop :=
  ∀ (i : Instr) (s t : State) (evs : List PortEvent) (f : Bytes) (k : Nat), exec i s = .next t →
    t.trace = s.trace ++ evs → PortEvent.tx f k ∈ evs →
    ∃ d h c data, s.dev = some d ∧ wireFrame i s.host = some (h, c, data) ∧ f = encodeFrame d h c data

/-- R160: no transition of `FSM` but the table's; a reset goes to DISCONNECTED. For a wire command this is the model's
choice (log entry 1). -/
def Obligations.FsmMovesOnlyByTheTable : Prop :=
  ∀ (i : Instr) (s t : State), exec i s = .next t → t.fsm ≠ s.fsm →
    (AbortedByReset s t ∧ t.fsm = .disconnected) ∨
    (fsmMove i s.fsm t.fsm ∧ ∃ r, Answered s t r ∧ r.status = 0)

/-- R160, R195: in any step, only a successful ASSIGN creates master rights, and only a successful RELEASE, a
DISCONNECT or a reset ends them. For a wire command this is the model's choice (log entry 1). -/
def Obligations.OnlyAssignCreatesMasterRights : Prop :=
  ∀ s t : State, step s = .next t →
    (s.fsm ≠ .master → t.fsm = .master →
      ∃ it ins i r, s.inputs = .item it :: ins ∧ decode it = .ok i ∧ operation i = .assign ∧ s.fsm = .registered ∧
        Answered s t r ∧ r.status = 0) ∧
    (s.fsm = .master → t.fsm ≠ .master →
      AbortedByReset s t ∨
      ∃ it ins i r, s.inputs = .item it :: ins ∧ decode it = .ok i ∧
        (operation i = .release ∨ operation i = .disconnect) ∧ Answered s t r ∧ r.status = 0)

/-- 93_implementation_defined.md sections 2 to 4: a well-formed instruction is never refused, stops in every state that
shows REGISTERING, and stops otherwise only on reading an absent `DEV` or `HOST` or on a call that a listed draw keeps
from returning. Which stops there are is the model's choice of form (log entry 6), and that a free draw never hangs is
the model's choice (log entry 3). -/
def Obligations.InstructionsStopOnlyOutsideTheSpec : Prop :=
  ∀ (i : Instr) (s : State), i.wf = true →
    (s.fsm = .registering → exec i s = .fault .registeringAtRest) ∧
    (∀ r, exec i s ≠ .refused r) ∧
    (∀ q, exec i s = .fault q →
      (q = .registeringAtRest ∧ s.fsm = .registering) ∨ (q = .absentDev ∧ s.dev = none) ∨
      (q = .absentHost ∧ s.host = none) ∨ (q = .channelHangs ∧ ¬ChannelReturns s))

/-! ### Invariants -/

/-- R20, R29: the invariants hold right after reset. -/
def Obligations.ResetMeetsTheInvariants : Prop :=
  SessionInv State.reset ∧ ReceivedInv State.reset ∧ PortContract State.reset ∧ ChannelReturns State.reset

/-- R29: every step keeps the invariants of the registers. -/
def Obligations.EveryStepKeepsTheSessionInvariant : Prop :=
  ∀ s t : State, SessionInv s → step s = .next t → SessionInv t

/-- R26, R27: every step keeps what the received data and the flags satisfy. -/
def Obligations.EveryStepKeepsTheReceivedInvariant : Prop :=
  ∀ s t : State, SessionInv s → ReceivedInv s → step s = .next t → ReceivedInv t

/-- R242: under the invariant, if the request port keeps its contract and every port call returns, a run of any length
stops nowhere. That a free draw returns is the model's choice (log entry 3). -/
def Obligations.RunsNeverStop : Prop :=
  ∀ s : State, SessionInv s → PortContract s → ChannelReturns s → ∀ k, SafeRun s k

/-! ### The assembler -/

/-- R87: the word and lane of each line, and the refusal of numbers out of bounds. -/
def Obligations.AssemblerLinesGiveTheirWords : Prop :=
  (∀ dev : Nat, AsmLine.assemble (.config dev) =
    if dev ≤ 255 then some [.request (BitVec.ofNat 32 (0x10000000 + dev)) []] else none) ∧
  (∀ (id : List Nat) , AsmLine.assemble (.reghost id) =
    if id.length ≤ 255 ∧ ∀ b ∈ id, b ≤ 255 then
      some [.request (BitVec.ofNat 32 (0x20000000 + id.length)) (id.map (BitVec.ofNat 8))] else none) ∧
  (∀ (cmd : Nat) (data : List Nat), AsmLine.assemble (.send cmd data) =
    if cmd ≤ 0xFFFF ∧ data.length ≤ 255 ∧ ∀ b ∈ data, b ≤ 255 then
      some [.request (BitVec.ofNat 32 (0x60000000 + cmd * 256 + data.length)) (data.map (BitVec.ofNat 8))]
    else none) ∧
  AsmLine.assemble .assign = some [.request 0x30000000 []] ∧
  AsmLine.assemble .mstatus = some [.request 0x40000000 []] ∧
  AsmLine.assemble .release = some [.request 0x50000000 []] ∧
  AsmLine.assemble .recv = some [.request 0x70000000 []] ∧
  AsmLine.assemble .check = some [.request 0x80000000 []] ∧
  AsmLine.assemble .disconnect = some [.request 0x90000000 []]

/-- R88: a pseudo-instruction is its operations in order, and is refused where one of them is. -/
def Obligations.PseudoInstructionsExpand : Prop :=
  (∀ dev id, assembleProgram [.connect dev id] = assembleProgram [.config dev, .reghost id]) ∧
  (∀ cmd data, assembleProgram [.xfer cmd data] = assembleProgram [.send cmd data, .recv]) ∧
  (∀ cmd data, assembleProgram [.xferc cmd data] = assembleProgram [.send cmd data, .recv, .check])
end

