-- ==== Sys2Proof/Laws/State.lean ====
section
/-! SUPPORT. What each state update leaves alone, and the small lemmas of the accessors. -/

namespace Sys2Proof.Machine

@[simp] theorem registers_with_responses (s : State) (x : List Response) :
    ({ s with responses := x } : State).registers = s.registers := rfl
@[simp] theorem registers_with_inputs (s : State) (x : List Input) :
    ({ s with inputs := x } : State).registers = s.registers := rfl
@[simp] theorem registers_with_trace (s : State) (x : List PortEvent) :
    ({ s with trace := x } : State).registers = s.registers := rfl
@[simp] theorem registers_with_rxDraws (s : State) (x : List RxDraw) :
    ({ s with rxDraws := x } : State).registers = s.registers := rfl
@[simp] theorem registers_with_txDraws (s : State) (x : List TxDraw) :
    ({ s with txDraws := x } : State).registers = s.registers := rfl
@[simp] theorem registers_with_freeDraws (s : State) (x : Nat) :
    ({ s with freeDraws := x } : State).registers = s.registers := rfl

@[simp] theorem record_registers (s : State) (ev : PortEvent) : (s.record ev).registers = s.registers := rfl
@[simp] theorem record_inputs (s : State) (ev : PortEvent) : (s.record ev).inputs = s.inputs := rfl
@[simp] theorem record_responses (s : State) (ev : PortEvent) : (s.record ev).responses = s.responses := rfl
@[simp] theorem record_trace (s : State) (ev : PortEvent) : (s.record ev).trace = s.trace ++ [ev] := rfl
@[simp] theorem record_rxDraws (s : State) (ev : PortEvent) : (s.record ev).rxDraws = s.rxDraws := rfl
@[simp] theorem record_txDraws (s : State) (ev : PortEvent) : (s.record ev).txDraws = s.txDraws := rfl
@[simp] theorem record_freeDraws (s : State) (ev : PortEvent) : (s.record ev).freeDraws = s.freeDraws := rfl

@[simp] theorem answer_registers (s : State) (r : Response) : (s.answer r).registers = s.registers := rfl
@[simp] theorem answer_fsm (s : State) (r : Response) : (s.answer r).fsm = s.fsm := rfl
@[simp] theorem answer_dev (s : State) (r : Response) : (s.answer r).dev = s.dev := rfl
@[simp] theorem answer_host (s : State) (r : Response) : (s.answer r).host = s.host := rfl
@[simp] theorem answer_out (s : State) (r : Response) : (s.answer r).out = s.out := rfl
@[simp] theorem answer_pay (s : State) (r : Response) : (s.answer r).pay = s.pay := rfl
@[simp] theorem answer_ms (s : State) (r : Response) : (s.answer r).ms = s.ms := rfl
@[simp] theorem answer_inputs (s : State) (r : Response) : (s.answer r).inputs = s.inputs := rfl
@[simp] theorem answer_trace (s : State) (r : Response) : (s.answer r).trace = s.trace := rfl
@[simp] theorem answer_responses (s : State) (r : Response) : (s.answer r).responses = s.responses ++ [r] := rfl
@[simp] theorem respond_eq (r : Response) (s : State) : respond r s = .next (s.answer r) := rfl
@[simp] theorem respondOk_eq (s : State) : respondOk s = .next (s.answer (Response.base s)) := rfl
@[simp] theorem raise_eq (e : Err) (s : State) : raise e s = .next (s.answer (Response.error e s)) := rfl

@[simp] theorem resetRegisters_registers (s : State) : (resetRegisters s).registers = State.reset.registers := rfl
@[simp] theorem resetRegisters_inputs (s : State) : (resetRegisters s).inputs = s.inputs := rfl
@[simp] theorem resetRegisters_responses (s : State) : (resetRegisters s).responses = s.responses := rfl
@[simp] theorem resetRegisters_trace (s : State) : (resetRegisters s).trace = s.trace := rfl
@[simp] theorem resetRegisters_fsm (s : State) : (resetRegisters s).fsm = .disconnected := rfl
@[simp] theorem resetRegisters_dev (s : State) : (resetRegisters s).dev = none := rfl
@[simp] theorem resetRegisters_host (s : State) : (resetRegisters s).host = none := rfl
@[simp] theorem resetRegisters_out (s : State) : (resetRegisters s).out = false := rfl
@[simp] theorem resetRegisters_pay (s : State) : (resetRegisters s).pay = none := rfl
@[simp] theorem resetRegisters_ms (s : State) : (resetRegisters s).ms = none := rfl

@[simp] theorem endSession_fsm (s : State) : (endSession s).fsm = .disconnected := rfl
@[simp] theorem endSession_dev (s : State) : (endSession s).dev = s.dev := rfl
@[simp] theorem endSession_host (s : State) : (endSession s).host = none := rfl
@[simp] theorem endSession_out (s : State) : (endSession s).out = s.out := rfl
@[simp] theorem endSession_pay (s : State) : (endSession s).pay = none := rfl
@[simp] theorem endSession_ms (s : State) : (endSession s).ms = none := rfl
@[simp] theorem endSession_inputs (s : State) : (endSession s).inputs = s.inputs := rfl
@[simp] theorem endSession_responses (s : State) : (endSession s).responses = s.responses := rfl
@[simp] theorem endSession_trace (s : State) : (endSession s).trace = s.trace := rfl

/-- Two states with the same registers agree on each of them. -/
theorem registers_eq {s t : State} (h : s.registers = t.registers) :
    s.fsm = t.fsm ∧ s.dev = t.dev ∧ s.host = t.host ∧ s.out = t.out ∧ s.pay = t.pay ∧ s.ms = t.ms := by
  simpa [State.registers] using h

@[simp] theorem memRead_whole (data : Bytes) : memRead data 0 data.length = data := by simp [memRead]

@[simp] theorem memWrite_whole (data : Bytes) : memWrite [] 0 data.length data = data := by simp [memWrite]

@[simp] theorem base_payload (s : State) : (Response.base s).payload = [] := rfl

/-- The one bound on data that the encodings express. -/
theorem dataFits_iff (data : Bytes) : dataFits data = true ↔ data.length ≤ 255 :=
  decide_eq_true_iff (p := data.length ≤ Config.maxData)

@[simp] theorem withinLane_fits {data : Bytes} (h : data.length ≤ 255) (k : Result) : withinLane data k = k := by
  simp [withinLane, (dataFits_iff data).2 h]

/-- R84: the snapshot of a response depends on the registers alone. -/
theorem base_eq_of_registers {s t : State} (h : s.registers = t.registers) : Response.base s = Response.base t := by
  obtain ⟨h1, -, h3, -⟩ := registers_eq h
  simp [Response.base, h1, h3]

/-- The bits of a mask are the ones it was built from. -/
theorem nibble_bits (b0 b1 b2 b3 : Bool) :
    (nibble b0 b1 b2 b3).getLsbD 0 = b0 ∧ (nibble b0 b1 b2 b3).getLsbD 1 = b1 ∧
      (nibble b0 b1 b2 b3).getLsbD 2 = b2 ∧ (nibble b0 b1 b2 b3).getLsbD 3 = b3 := by
  revert b0 b1 b2 b3
  decide

/-- R200: a checksum error's status does not depend on the two bytes it carries. -/
@[simp] theorem status_checksum (c k : Byte) : (Err.checksum c k).status = 0x10 := by
  change (0x1#4 ++ 0x0#4 : Byte) = 0x10#8
  decide

/-- R200: a device error's status does not depend on the code it carries. -/
@[simp] theorem status_device (code : BitVec 16) : (Err.device code).status = 0x30 := by
  change (0x3#4 ++ 0x0#4 : Byte) = 0x30#8
  decide

end Sys2Proof.Machine
end

