-- ==== Sys2Proof/Laws/Ports.lean ====
section
/-! SUPPORT. What a port procedure can do: its traffic, its result on scripted draws, and when it returns. -/

namespace Sys2Proof.Machine

/-- Between two states only port calls happened, `evs` in order. -/
structure Traffic (s s' : State) (evs : List PortEvent) : Prop where
  registers : s'.registers = s.registers
  inputs : s'.inputs = s.inputs
  responses : s'.responses = s.responses
  trace : s'.trace = s.trace ++ evs

theorem Traffic.refl (s : State) : Traffic s s [] := ⟨rfl, rfl, rfl, by simp⟩

theorem Traffic.trans {s s' s'' : State} {e e' : List PortEvent} (h : Traffic s s' e) (h' : Traffic s' s'' e') :
    Traffic s s'' (e ++ e') :=
  ⟨h'.registers.trans h.registers, h'.inputs.trans h.inputs, h'.responses.trans h.responses, by
    rw [h'.trace, h.trace, List.append_assoc]⟩

/-- A call of `RxByte`. -/
def PortEvent.isRx : PortEvent → Bool
  | .tx _ _ => false
  | .rx _ => true
  | .rxTimeout => true

/-- At most `n` calls of `RxByte` happened, and nothing else. -/
def RxTraffic (n : Nat) (s s' : State) : Prop :=
  ∃ evs, Traffic s s' evs ∧ (∀ e ∈ evs, PortEvent.isRx e = true) ∧ evs.length ≤ n

theorem RxTraffic.refl (s : State) (n : Nat) : RxTraffic n s s := ⟨[], .refl s, by simp, by simp⟩

theorem RxTraffic.trans {m n : Nat} {s s' s'' : State} (h : RxTraffic m s s') (h' : RxTraffic n s' s'') :
    RxTraffic (m + n) s s'' := by
  obtain ⟨e, t, r, l⟩ := h
  obtain ⟨e', t', r', l'⟩ := h'
  refine ⟨e ++ e', t.trans t', ?_, by simp; omega⟩
  intro x hx
  rcases List.mem_append.1 hx with hx | hx
  · exact r x hx
  · exact r' x hx

theorem RxTraffic.mono {m n : Nat} {s s' : State} (h : RxTraffic m s s') (hmn : m ≤ n) : RxTraffic n s s' := by
  obtain ⟨e, t, r, l⟩ := h
  exact ⟨e, t, r, l.trans hmn⟩

/-- The state a port procedure leaves, if it ends. -/
def Port.state? {α : Type} : Port α → Option State
  | .ok _ s => some s
  | .raised _ s => some s
  | .aborted s => some s
  | .stuck => none

/-- A sequence ends where its first procedure fails to give a value, or where its second ends. -/
theorem Port.bind_state? {α β : Type} {p : Port α} {k : α → State → Port β} {t : State}
    (h : (p.bind k).state? = some t) :
    p.state? = some t ∨ ∃ a s, p = .ok a s ∧ (k a s).state? = some t := by
  cases p with
  | ok a s => exact .inr ⟨a, s, rfl, h⟩
  | raised e s => exact .inl h
  | aborted s => exact .inl h
  | stuck => cases h

/-- A sequence gives a value exactly when both of its procedures do. -/
theorem Port.bind_ok {α β : Type} {p : Port α} {k : α → State → Port β} {b : β} {t : State} :
    p.bind k = .ok b t ↔ ∃ a s, p = .ok a s ∧ k a s = .ok b t := by
  cases p with
  | ok a s => exact ⟨fun h => ⟨a, s, rfl, h⟩, fun ⟨_, _, h, h'⟩ => by cases h; exact h'⟩
  | _ => exact ⟨fun h => by simp [Port.bind] at h, fun ⟨_, _, h, _⟩ => by simp at h⟩

/-- A sequence raises an error where its first procedure does, or its second. -/
theorem Port.bind_raised {α β : Type} {p : Port α} {k : α → State → Port β} {e : Err} {t : State} :
    p.bind k = .raised e t ↔ p = .raised e t ∨ ∃ a s, p = .ok a s ∧ k a s = .raised e t := by
  cases p <;> simp [Port.bind]

/-- The error a sequence raises is one its parts can raise. -/
theorem Port.ok_bind {α β : Type} (a : α) (s : State) (k : α → State → Port β) : (Port.ok a s).bind k = k a s := rfl

/-- R13, R205, R232: the ways an operation's port traffic ends in a next state. -/
theorem Port.conclude_next {α : Type} {p : Port α} {f : Err → State → Result} {k : α → State → Result} {t : State}
    (h : p.conclude f k = .next t) :
    (∃ a s, p = .ok a s ∧ k a s = .next t) ∨ (∃ e s, p = .raised e s ∧ f e s = .next t) ∨
      ∃ s, p = .aborted s ∧ t = resetRegisters s := by
  cases p with
  | ok a s => exact .inl ⟨a, s, rfl, h⟩
  | raised e s => exact .inr (.inl ⟨e, s, rfl, h⟩)
  | aborted s => exact .inr (.inr ⟨s, rfl, by simpa [Port.conclude] using h.symm⟩)
  | stuck => cases h

/-! ### Draws -/

theorem drawRx_traffic (s : State) : Traffic s (drawRx s).2 [] := by
  unfold drawRx
  split <;> exact ⟨rfl, rfl, rfl, by simp⟩

theorem drawTx_traffic (s : State) : Traffic s (drawTx s).2 [] := by
  unfold drawTx
  split <;> exact ⟨rfl, rfl, rfl, by simp⟩

theorem record_traffic (s : State) (ev : PortEvent) : Traffic s (s.record ev) [ev] := ⟨rfl, rfl, rfl, rfl⟩

/-! ### Traffic of the procedures -/

theorem rxByte_traffic {e : Err} {s t : State} (h : (rxByte e s).state? = some t) : RxTraffic 1 s t := by
  have hd := drawRx_traffic s
  unfold rxByte at h
  split at h <;> rename_i s' heq <;> rw [heq] at hd <;> simp [Port.state?] at h <;> subst h
  · exact ⟨_, hd.trans (record_traffic _ _), by simp [PortEvent.isRx], by simp⟩
  · exact ⟨_, hd.trans (record_traffic _ _), by simp [PortEvent.isRx], by simp⟩
  · exact ⟨_, hd, by simp, by simp⟩
  · exact ⟨_, hd.trans (record_traffic _ _), by simp [PortEvent.isRx], by simp⟩

/-- One `RxByte` before a procedure adds one call. -/
theorem rxByte_bind_traffic {β : Type} {n : Nat} {e : Err} {s t : State} {k : Byte → State → Port β}
    (hk : ∀ b s' t, (k b s').state? = some t → RxTraffic n s' t)
    (h : ((rxByte e s).bind k).state? = some t) : RxTraffic (1 + n) s t := by
  rcases Port.bind_state? h with h | ⟨b, s', h, h'⟩
  · exact (rxByte_traffic h).mono (by omega)
  · exact (rxByte_traffic (t := s') (e := e) (by rw [h]; rfl)).trans (hk _ _ _ h')

theorem rxBytes_traffic (n : Nat) {s t : State} (h : (rxBytes n s).state? = some t) : RxTraffic n s t := by
  induction n generalizing s t with
  | zero =>
    simp only [rxBytes, Port.state?, Option.some.injEq] at h
    exact h ▸ .refl s 0
  | succ n ih =>
    rw [Nat.add_comm]
    refine rxByte_bind_traffic (fun b s' t h => ?_) h
    rcases Port.bind_state? h with h | ⟨bs, s'', h, h'⟩
    · exact ih h
    · simp only [Port.state?, Option.some.injEq] at h'
      exact h' ▸ ih (by rw [h]; rfl)

/-- The check touches no port. -/
theorem verify_state? {n dev host msb lsb c : Byte} {data : Bytes} {s t : State}
    (h : (verify n dev host msb lsb data c s).state? = some t) : s = t := by
  unfold verify at h
  split at h <;> simpa [Port.state?] using h

theorem rxBody_traffic {s t : State} (h : (rxBody s).state? = some t) : RxTraffic 261 s t := by
  have hmax : ∀ n : Byte, n.toNat ≤ 255 := fun n => by have := n.isLt; omega
  refine RxTraffic.mono (n := 261) (m := 1 + (1 + (1 + (1 + (1 + (255 + (1 + 0))))))) ?_ (by omega)
  refine rxByte_bind_traffic (fun n s t h => ?_) h
  refine rxByte_bind_traffic (fun dev s t h => ?_) h
  refine rxByte_bind_traffic (fun host s t h => ?_) h
  refine rxByte_bind_traffic (fun msb s t h => ?_) h
  refine rxByte_bind_traffic (fun lsb s t h => ?_) h
  rcases Port.bind_state? h with h | ⟨data, s', h, h'⟩
  · exact (rxBytes_traffic _ h).mono ((hmax n).trans (by omega))
  · refine ((rxBytes_traffic n.toNat (t := s') (s := s) (by rw [h]; rfl)).mono (hmax n)).trans ?_
    refine rxByte_bind_traffic (fun c s t h => ?_) h'
    exact verify_state? h ▸ .refl _ _

/-- R103, R242: a receive makes at most 262 `RxByte` calls and nothing else. -/
theorem rxFrame_traffic {s t : State} (h : (rxFrame s).state? = some t) : RxTraffic 262 s t := by
  refine RxTraffic.mono (m := 1 + 261) ?_ (by omega)
  refine rxByte_bind_traffic (fun b s t h => ?_) h
  split at h
  · simp only [Port.state?, Option.some.injEq] at h
    exact h ▸ .refl _ _
  · exact rxBody_traffic h

theorem encodeFrame_length (d h : Byte) (c : Command) (data : Bytes) :
    (encodeFrame d h c data).length = 7 + data.length := by
  simp [encodeFrame]; omega

/-- R104, R111: a transmission makes one `TxFrame` call and nothing else; a timeout leaves the frame unfinished. -/
theorem txSend_traffic {d h : Byte} {c : Command} {data : Bytes} {s t : State}
    (hs : (txSend d h c data s).state? = some t) :
    ∃ k, k ≤ (encodeFrame d h c data).length ∧ Traffic s t [.tx (encodeFrame d h c data) k] := by
  have hd := drawTx_traffic s
  have hl := encodeFrame_length d h c data
  unfold txSend txFrame at hs
  split at hs <;> rename_i s' heq <;> rw [heq] at hd <;> simp only [Port.state?, Option.some.injEq, reduceCtorEq] at hs
  · exact ⟨_, le_rfl, hs ▸ hd.trans (record_traffic _ _)⟩
  · exact ⟨_, (Nat.mod_lt _ (by omega)).le, hs ▸ hd.trans (record_traffic _ _)⟩
  · exact ⟨_, Nat.le_of_lt_succ (Nat.mod_lt _ (by omega)), hs ▸ hd.trans (record_traffic _ _)⟩

/-- A transmission that ends with a value sent the whole frame. -/
theorem txSend_ok {d h : Byte} {c : Command} {data : Bytes} {s t : State} {u : Unit}
    (hs : txSend d h c data s = .ok u t) :
    Traffic s t [.tx (encodeFrame d h c data) (encodeFrame d h c data).length] := by
  have hd := drawTx_traffic s
  unfold txSend txFrame at hs
  split at hs <;> rename_i s' heq <;> rw [heq] at hd <;> simp only [Port.ok.injEq, reduceCtorEq] at hs
  exact hs.2 ▸ hd.trans (record_traffic _ _)

/-- One frame went out, whole or in part, and then at most 262 `RxByte` calls followed. -/
def Exchange (f : Bytes) (s s' : State) : Prop :=
  ∃ k evs, k ≤ f.length ∧ Traffic s s' (.tx f k :: evs) ∧ (∀ e ∈ evs, PortEvent.isRx e = true) ∧ evs.length ≤ 262

theorem Exchange.registers {f : Bytes} {s s' : State} (h : Exchange f s s') : s'.registers = s.registers := by
  obtain ⟨_, _, _, t, _⟩ := h
  exact t.registers

/-- R162: what a transaction does on the ports. -/
theorem transact_traffic {d h : Byte} {c : Command} {data : Bytes} {s t : State}
    (hs : (transact d h c data s).state? = some t) : Exchange (encodeFrame d h c data) s t := by
  rcases Port.bind_state? hs with hs | ⟨u, s', hs, hk⟩
  · obtain ⟨k, hk, ht⟩ := txSend_traffic hs
    exact ⟨k, [], hk, ht, by simp, by simp⟩
  · have ht := txSend_ok hs
    have hr : RxTraffic 262 s' t := by
      rcases Port.bind_state? hk with hk | ⟨f, s'', hk, h'⟩
      · exact rxFrame_traffic hk
      · simp only [Port.state?, Option.some.injEq] at h'
        exact h' ▸ rxFrame_traffic (by rw [hk]; rfl)
    obtain ⟨evs, hv, hr, hl⟩ := hr
    exact ⟨_, evs, le_rfl, ht.trans hv, hr, hl⟩

theorem controlReply_traffic {d h : Byte} {c : Command} {data : Bytes} {s t : State}
    (hs : (controlReply d h c data s).state? = some t) : Exchange (encodeFrame d h c data) s t := by
  rcases Port.bind_state? hs with hs | ⟨r, s', hs, hk⟩
  · exact transact_traffic hs
  · refine transact_traffic (t := t) ?_
    rw [hs]
    split at hk <;> simpa [Port.state?] using hk

theorem masterSet_traffic {d h b : Byte} {s t : State} (hs : (masterSet d h b s).state? = some t) :
    Exchange (encodeFrame d h Config.masterSet [b]) s t := by
  rcases Port.bind_state? hs with hs | ⟨r, s', hs, hk⟩
  · exact controlReply_traffic hs
  · refine controlReply_traffic (t := t) ?_
    rw [hs]
    split at hk <;> simpa [Port.state?] using hk

/-! ### Scripted draws -/

@[simp] theorem rxByte_script (e : Err) (s : State) (b : Byte) (ds : List RxDraw) (h : s.rxDraws = .byte b :: ds) :
    rxByte e s = .ok b ({ s with rxDraws := ds }.record (.rx b)) := by
  simp [rxByte, drawRx, h]

theorem rxByte_timeout (e : Err) (s : State) (ds : List RxDraw) (h : s.rxDraws = .timeout :: ds) :
    rxByte e s = .raised e ({ s with rxDraws := ds }.record .rxTimeout) := by
  simp [rxByte, drawRx, h]

/-- The state after `bs` was taken from a script that goes on with `ds`. -/
def State.took (s : State) (bs : Bytes) (ds : List RxDraw) : State :=
  { s with rxDraws := ds, trace := s.trace ++ bs.map .rx }

@[simp] theorem took_rxDraws (s : State) (bs : Bytes) (ds : List RxDraw) : (s.took bs ds).rxDraws = ds := rfl

@[simp] theorem took_took (s : State) (bs cs : Bytes) (ds es : List RxDraw) :
    (s.took bs ds).took cs es = s.took (bs ++ cs) es := by
  simp [State.took]

theorem rxByte_took (e : Err) {s : State} {b : Byte} {ds : List RxDraw} (h : s.rxDraws = .byte b :: ds) :
    rxByte e s = .ok b (s.took [b] ds) := by
  simp [rxByte_script e s b ds h, State.took, State.record]

theorem rxBytes_took (bs : Bytes) {s : State} {ds : List RxDraw} (h : s.rxDraws = bs.map .byte ++ ds) :
    rxBytes bs.length s = .ok bs (s.took bs ds) := by
  induction bs generalizing s with
  | nil => simp [rxBytes, State.took, ← (by simpa using h : s.rxDraws = ds)]
  | cons b bs ih =>
    have h1 := rxByte_took .truncated (s := s) (b := b) (ds := bs.map .byte ++ ds) (by simpa using h)
    have h2 := ih (s := s.took [b] (bs.map .byte ++ ds)) rfl
    simp [rxBytes, h1, h2, Port.bind]

theorem txSend_accepted {d h : Byte} {c : Command} {data : Bytes} {s : State} {ts : List TxDraw}
    (hs : s.txDraws = .accepted :: ts) :
    txSend d h c data s = .ok () { s with
      txDraws := ts, trace := s.trace ++ [.tx (encodeFrame d h c data) (encodeFrame d h c data).length] } := by
  simp [txSend, txFrame, drawTx, hs, State.record]

/-! ### Errors -/

/-- The errors of a receive (R103). -/
def ReceiveError (e : Err) : Prop :=
  e = .timeoutRx ∨ e = .badStx ∨ e = .truncated ∨ ∃ c k, c ≠ k ∧ e = .checksum c k

theorem rxByte_raised {e e' : Err} {s t : State} (h : rxByte e s = .raised e' t) : e' = e := by
  unfold rxByte at h
  split at h <;> simp at h
  exact h.1.symm

theorem rxBytes_raised {n : Nat} {e : Err} {s t : State} (h : rxBytes n s = .raised e t) : e = .truncated := by
  induction n generalizing s with
  | zero => simp [rxBytes] at h
  | succ n ih =>
    rcases Port.bind_raised.1 h with h | ⟨b, s', -, h⟩
    · exact rxByte_raised h
    · rcases Port.bind_raised.1 h with h | ⟨bs, s'', -, h⟩
      · exact ih h
      · simp at h

theorem verify_raised {n dev host msb lsb c : Byte} {data : Bytes} {e : Err} {s t : State}
    (h : verify n dev host msb lsb data c s = .raised e t) : ∃ c k, c ≠ k ∧ e = .checksum c k := by
  unfold verify at h
  split at h <;> simp at h
  exact ⟨_, _, ‹_›, h.1.symm⟩

/-- R103: the errors a receive raises. -/
theorem rxFrame_raised {e : Err} {s t : State} (h : rxFrame s = .raised e t) : ReceiveError e := by
  rcases Port.bind_raised.1 h with h | ⟨b, s', -, h⟩
  · exact .inl (rxByte_raised h)
  split at h
  · simp only [Port.raised.injEq] at h
    exact .inr (.inl h.1.symm)
  refine .inr (.inr ?_)
  unfold rxBody at h
  rcases Port.bind_raised.1 h with h | ⟨_, _, -, h⟩
  · exact .inl (rxByte_raised h)
  rcases Port.bind_raised.1 h with h | ⟨_, _, -, h⟩
  · exact .inl (rxByte_raised h)
  rcases Port.bind_raised.1 h with h | ⟨_, _, -, h⟩
  · exact .inl (rxByte_raised h)
  rcases Port.bind_raised.1 h with h | ⟨_, _, -, h⟩
  · exact .inl (rxByte_raised h)
  rcases Port.bind_raised.1 h with h | ⟨_, _, -, h⟩
  · exact .inl (rxByte_raised h)
  rcases Port.bind_raised.1 h with h | ⟨_, _, -, h⟩
  · exact .inl (rxBytes_raised h)
  rcases Port.bind_raised.1 h with h | ⟨_, _, -, h⟩
  · exact .inl (rxByte_raised h)
  exact .inr (verify_raised h)

theorem txSend_raised {d h : Byte} {c : Command} {data : Bytes} {e : Err} {s t : State}
    (hs : txSend d h c data s = .raised e t) : e = .timeoutTx := by
  unfold txSend txFrame at hs
  split at hs <;> simp at hs
  exact hs.1.symm

/-- R162: the errors a transaction raises. -/
theorem transact_raised {d h : Byte} {c : Command} {data : Bytes} {e : Err} {s t : State}
    (hs : transact d h c data s = .raised e t) : e = .timeoutTx ∨ ReceiveError e := by
  rcases Port.bind_raised.1 hs with hs | ⟨_, _, -, hs⟩
  · exact .inl (txSend_raised hs)
  rcases Port.bind_raised.1 hs with hs | ⟨_, _, -, hs⟩
  · exact .inr (rxFrame_raised hs)
  · simp at hs

theorem controlReply_raised {d h : Byte} {c : Command} {data : Bytes} {e : Err} {s t : State}
    (hs : controlReply d h c data s = .raised e t) : e = .timeoutTx ∨ ReceiveError e ∨ e = .badReplyLen := by
  rcases Port.bind_raised.1 hs with hs | ⟨_, _, -, hs⟩
  · rcases transact_raised hs with h | h
    · exact .inl h
    · exact .inr (.inl h)
  · split at hs <;> simp at hs
    exact .inr (.inr hs.1.symm)

theorem masterSet_raised {d h b : Byte} {e : Err} {s t : State} (hs : masterSet d h b s = .raised e t) :
    e = .timeoutTx ∨ ReceiveError e ∨ e = .badReplyLen ∨ ∃ r : Byte, r ≠ 0 ∧ e = .device (r.setWidth 16) := by
  rcases Port.bind_raised.1 hs with hs | ⟨_, _, -, hs⟩
  · rcases controlReply_raised hs with h | h | h
    · exact .inl h
    · exact .inr (.inl h)
    · exact .inr (.inr (.inl h))
  · split at hs <;> simp at hs
    exact .inr (.inr (.inr ⟨_, ‹_›, hs.1.symm⟩))

/-! ### Returning -/

/-- The procedure returns, and so will the next one. -/
def Port.Returns {α : Type} (p : Port α) : Prop := p ≠ .stuck ∧ ∀ t, p.state? = some t → ChannelReturns t

theorem Port.Returns.bind {α β : Type} {p : Port α} {k : α → State → Port β} (h : p.Returns)
    (hk : ∀ a s, ChannelReturns s → (k a s).Returns) : (p.bind k).Returns := by
  cases p with
  | ok a s => exact hk a s (h.2 s rfl)
  | raised e s => exact ⟨by simp [Port.bind], h.2⟩
  | aborted s => exact ⟨by simp [Port.bind], h.2⟩
  | stuck => exact absurd rfl h.1

theorem ChannelReturns.of_eq {s t : State} (h : ChannelReturns s) (h1 : t.rxDraws = s.rxDraws)
    (h2 : t.txDraws = s.txDraws) : ChannelReturns t :=
  ⟨h1 ▸ h.rx, h2 ▸ h.tx⟩

theorem RxDraw_returning_ne (d : RxDraw) : d.returning ≠ .hang := by cases d <;> simp [RxDraw.returning]

theorem TxDraw_returning_ne (d : TxDraw) : d.returning ≠ .hang := by cases d <;> simp [TxDraw.returning]

theorem drawRx_returns {s : State} (h : ChannelReturns s) : (drawRx s).1 ≠ .hang ∧ ChannelReturns (drawRx s).2 := by
  obtain ⟨h1, h2⟩ := h
  unfold drawRx
  split
  · rename_i d ds heq
    rw [heq, List.mem_cons, not_or] at h1
    exact ⟨fun hd => h1.1 hd.symm, ⟨h1.2, h2⟩⟩
  · exact ⟨RxDraw_returning_ne _, ⟨h1, h2⟩⟩

theorem drawTx_returns {s : State} (h : ChannelReturns s) : (drawTx s).1 ≠ .hang ∧ ChannelReturns (drawTx s).2 := by
  obtain ⟨h1, h2⟩ := h
  unfold drawTx
  split
  · rename_i d ds heq
    rw [heq, List.mem_cons, not_or] at h2
    exact ⟨fun hd => h2.1 hd.symm, ⟨h1, h2.2⟩⟩
  · exact ⟨TxDraw_returning_ne _, ⟨h1, h2⟩⟩

theorem rxByte_returns (e : Err) {s : State} (h : ChannelReturns s) : (rxByte e s).Returns := by
  obtain ⟨hd, hs⟩ := drawRx_returns h
  unfold rxByte
  split <;> rename_i s' heq <;> rw [heq] at hd hs
  · exact ⟨by simp, fun t ht => by simp [Port.state?] at ht; exact hs.of_eq (by simp [← ht]) (by simp [← ht])⟩
  · exact ⟨by simp, fun t ht => by simp [Port.state?] at ht; exact hs.of_eq (by simp [← ht]) (by simp [← ht])⟩
  · exact ⟨by simp, fun t ht => by simp [Port.state?] at ht; exact ht ▸ hs⟩
  · exact ⟨by simp, fun t ht => by simp [Port.state?] at ht; exact hs.of_eq (by simp [← ht]) (by simp [← ht])⟩
  · exact absurd rfl hd

theorem Port.returns_ok {α : Type} (a : α) {s : State} (h : ChannelReturns s) : (Port.ok a s).Returns :=
  ⟨by simp, fun t ht => by simp [Port.state?] at ht; exact ht ▸ h⟩

theorem Port.returns_raised {α : Type} (e : Err) {s : State} (h : ChannelReturns s) :
    (Port.raised e s : Port α).Returns :=
  ⟨by simp, fun t ht => by simp [Port.state?] at ht; exact ht ▸ h⟩

theorem rxBytes_returns (n : Nat) {s : State} (h : ChannelReturns s) : (rxBytes n s).Returns := by
  induction n generalizing s with
  | zero => exact Port.returns_ok _ h
  | succ n ih => exact (rxByte_returns _ h).bind fun b s h => (ih h).bind fun bs s h => Port.returns_ok _ h

/-- R242: a receive ends if every `RxByte` call returns. -/
theorem rxFrame_returns {s : State} (h : ChannelReturns s) : (rxFrame s).Returns := by
  refine (rxByte_returns _ h).bind fun b s h => ?_
  split
  · exact Port.returns_raised _ h
  · refine (rxByte_returns _ h).bind fun n s h => (rxByte_returns _ h).bind fun dev s h =>
      (rxByte_returns _ h).bind fun host s h => (rxByte_returns _ h).bind fun msb s h =>
      (rxByte_returns _ h).bind fun lsb s h => (rxBytes_returns _ h).bind fun data s h =>
      (rxByte_returns _ h).bind fun c s h => ?_
    unfold verify
    split
    · exact Port.returns_raised _ h
    · exact Port.returns_ok _ h

/-- R242: a transmission ends if its `TxFrame` call returns. -/
theorem txSend_returns (d h : Byte) (c : Command) (data : Bytes) {s : State} (hs : ChannelReturns s) :
    (txSend d h c data s).Returns := by
  obtain ⟨hd, hs⟩ := drawTx_returns hs
  unfold txSend txFrame
  split <;> rename_i s' heq <;> rw [heq] at hd hs
  · exact Port.returns_ok _ (hs.of_eq rfl rfl)
  · exact Port.returns_raised _ (hs.of_eq rfl rfl)
  · exact ⟨by simp, fun t ht => by simp [Port.state?] at ht; exact hs.of_eq (by simp [← ht]) (by simp [← ht])⟩
  · exact absurd rfl hd

theorem controlReply_returns (d h : Byte) (c : Command) (data : Bytes) {s : State} (hs : ChannelReturns s) :
    (controlReply d h c data s).Returns := by
  refine ((txSend_returns d h c data hs).bind fun _ s hs => (rxFrame_returns hs).bind fun f s hs =>
    Port.returns_ok _ hs).bind fun rdata s hs => ?_
  split
  · exact Port.returns_ok _ hs
  · exact Port.returns_raised _ hs

theorem masterSet_returns (d h b : Byte) {s : State} (hs : ChannelReturns s) : (masterSet d h b s).Returns := by
  refine (controlReply_returns d h _ _ hs).bind fun rdata s hs => ?_
  split
  · exact Port.returns_raised _ hs
  · exact Port.returns_ok _ hs

end Sys2Proof.Machine
end

