-- ==== Sys2Proof/Laws/Codec.lean ====
section
/-! SUPPORT. The bit fields of commands and request words, and the receiver on a scripted frame. -/

namespace Sys2Proof

theorem commandOfBytes_toNat (m l : Byte) : (commandOfBytes m l).toNat = m.toNat * 256 + l.toNat := by
  have := l.isLt
  rw [commandOfBytes, BitVec.toNat_append, ← Nat.shiftLeft_add_eq_or_of_lt (by omega), Nat.shiftLeft_eq]

theorem msb_toNat (c : Command) : (Command.msb c).toNat = c.toNat / 256 := by
  have := c.isLt
  rw [Command.msb, BitVec.extractLsb'_toNat, Nat.shiftRight_eq_div_pow]
  omega

theorem lsb_toNat (c : Command) : (Command.lsb c).toNat = c.toNat % 256 := by
  rw [Command.lsb, BitVec.extractLsb'_toNat, Nat.shiftRight_eq_div_pow]
  omega

@[simp] theorem commandOfBytes_msb_lsb (c : Command) : commandOfBytes (Command.msb c) (Command.lsb c) = c := by
  apply BitVec.eq_of_toNat_eq
  rw [commandOfBytes_toNat, msb_toNat, lsb_toNat]
  omega

@[simp] theorem msb_commandOfBytes (m l : Byte) : Command.msb (commandOfBytes m l) = m := by
  apply BitVec.eq_of_toNat_eq
  rw [msb_toNat, commandOfBytes_toNat]
  omega

@[simp] theorem lsb_commandOfBytes (m l : Byte) : Command.lsb (commandOfBytes m l) = l := by
  apply BitVec.eq_of_toNat_eq
  rw [lsb_toNat, commandOfBytes_toNat]
  omega

theorem lenByte_toNat {data : Bytes} (h : data.length ≤ 255) : (lenByte data).toNat = data.length := by
  simp [lenByte]; omega

@[simp] theorem lenByte_nil : lenByte [] = 0 := rfl

@[simp] theorem lenByte_one (b : Byte) : lenByte [b] = 1 := rfl

/-- R80, R87: a request word as a number. -/
theorem requestWord_toNat (op : BitVec 4) (c : Command) (l : Byte) :
    (requestWord op c l).toNat = op.toNat * 2 ^ 28 + c.toNat * 2 ^ 8 + l.toNat := by
  have h1 := l.isLt
  have h2 := c.isLt
  rw [requestWord, BitVec.toNat_append, BitVec.toNat_append, BitVec.toNat_append,
    ← Nat.shiftLeft_add_eq_or_of_lt (by omega), ← Nat.shiftLeft_add_eq_or_of_lt (by omega),
    ← Nat.shiftLeft_add_eq_or_of_lt (by simp), Nat.shiftLeft_eq, Nat.shiftLeft_eq, Nat.shiftLeft_eq]
  simp only [BitVec.toNat_ofNat]
  omega

theorem op_toNat (w : RequestWord) : (RequestWord.op w).toNat = w.toNat / 2 ^ 28 := by
  have := w.isLt
  rw [RequestWord.op, BitVec.extractLsb'_toNat, Nat.shiftRight_eq_div_pow]
  omega

theorem rsv_toNat (w : RequestWord) : (RequestWord.rsv w).toNat = w.toNat / 2 ^ 24 % 16 := by
  rw [RequestWord.rsv, BitVec.extractLsb'_toNat, Nat.shiftRight_eq_div_pow]

theorem cmd_toNat (w : RequestWord) : (RequestWord.cmd w).toNat = w.toNat / 2 ^ 8 % 2 ^ 16 := by
  rw [RequestWord.cmd, BitVec.extractLsb'_toNat, Nat.shiftRight_eq_div_pow]

theorem len_toNat (w : RequestWord) : (RequestWord.len w).toNat = w.toNat % 256 := by
  rw [RequestWord.len, BitVec.extractLsb'_toNat, Nat.shiftRight_eq_div_pow]
  omega

@[simp] theorem op_requestWord (op : BitVec 4) (c : Command) (l : Byte) : RequestWord.op (requestWord op c l) = op := by
  apply BitVec.eq_of_toNat_eq
  rw [op_toNat, requestWord_toNat]
  omega

@[simp] theorem rsv_requestWord (op : BitVec 4) (c : Command) (l : Byte) :
    RequestWord.rsv (requestWord op c l) = 0 := by
  apply BitVec.eq_of_toNat_eq
  rw [rsv_toNat, requestWord_toNat]
  simp only [BitVec.ofNat_eq_ofNat, BitVec.toNat_ofNat]
  omega

@[simp] theorem cmd_requestWord (op : BitVec 4) (c : Command) (l : Byte) :
    RequestWord.cmd (requestWord op c l) = c := by
  apply BitVec.eq_of_toNat_eq
  rw [cmd_toNat, requestWord_toNat]
  omega

@[simp] theorem len_requestWord (op : BitVec 4) (c : Command) (l : Byte) :
    RequestWord.len (requestWord op c l) = l := by
  apply BitVec.eq_of_toNat_eq
  rw [len_toNat, requestWord_toNat]
  omega

/-- R80: a word without reserved bits is its three fields. -/
theorem requestWord_fields (w : RequestWord) (h : RequestWord.rsv w = 0) :
    requestWord (RequestWord.op w) (RequestWord.cmd w) (RequestWord.len w) = w := by
  have hr := rsv_toNat w
  rw [h] at hr
  simp only [BitVec.ofNat_eq_ofNat, BitVec.toNat_ofNat] at hr
  apply BitVec.eq_of_toNat_eq
  rw [requestWord_toNat, op_toNat, cmd_toNat, len_toNat]
  omega

/-- R82, R83: what a word that is neither reserved nor malformed has in its unused fields. -/
theorem illegalWord_none {w : RequestWord} (h : illegalWord w = none) :
    RequestWord.rsv w = 0 ∧ ((RequestWord.op w).toNat ≠ 6 → RequestWord.cmd w = 0) ∧
      ((RequestWord.op w).toNat ≠ 1 ∧ (RequestWord.op w).toNat ≠ 2 ∧ (RequestWord.op w).toNat ≠ 6 →
        RequestWord.len w = 0) := by
  unfold illegalWord at h
  split at h
  · simp at h
  rename_i hr
  refine ⟨by simpa using hr, ?_⟩
  split at h <;> by_cases h1 : RequestWord.cmd w = 0 <;> by_cases h2 : RequestWord.len w = 0 <;> simp_all

/-- The table's mask over `OP`, `RSV` and `CMD`, as two shifts. -/
theorem mask_upper24 (w : RequestWord) : w &&& 0xFFFFFF00#32 = (w >>> 8) <<< 8 := by
  apply BitVec.eq_of_getLsbD_eq
  intro i hi
  interval_cases i <;> simp

/-- The table's mask over `OP` and `RSV`, as two shifts. -/
theorem mask_upper8 (w : RequestWord) : w &&& 0xFF000000#32 = (w >>> 24) <<< 24 := by
  apply BitVec.eq_of_getLsbD_eq
  intro i hi
  interval_cases i <;> simp

/-- R82: a word matches a table row with an 8-bit operand exactly when its other fields are the row's. -/
theorem matches_operand8 (w : RequestWord) (k : BitVec 4) :
    w &&& 0xFFFFFF00#32 = requestWord k 0 0 ↔
      RequestWord.op w = k ∧ RequestWord.rsv w = 0 ∧ RequestWord.cmd w = 0 := by
  rw [mask_upper24, ← BitVec.toNat_inj, ← BitVec.toNat_inj, ← BitVec.toNat_inj, ← BitVec.toNat_inj, op_toNat, rsv_toNat,
    cmd_toNat, requestWord_toNat]
  have := w.isLt
  have := k.isLt
  simp [Nat.shiftLeft_eq, Nat.shiftRight_eq_div_pow]
  omega

/-- R82: a word matches SEND's row exactly when `OP` and `RSV` are the row's. -/
theorem matches_operand24 (w : RequestWord) (k : BitVec 4) :
    w &&& 0xFF000000#32 = requestWord k 0 0 ↔ RequestWord.op w = k ∧ RequestWord.rsv w = 0 := by
  rw [mask_upper8, ← BitVec.toNat_inj, ← BitVec.toNat_inj, ← BitVec.toNat_inj, op_toNat, rsv_toNat, requestWord_toNat]
  have := w.isLt
  have := k.isLt
  simp [Nat.shiftLeft_eq, Nat.shiftRight_eq_div_pow]
  omega

end Sys2Proof

namespace Sys2Proof.Machine

/-- R9, R100: the checksum as a number. -/
theorem checksum_toNat (n dev host msb lsb : Byte) (data : Bytes) :
    (checksum n dev host msb lsb data).toNat =
      (n.toNat + dev.toNat + host.toNat + msb.toNat + lsb.toNat + sumBytes data) % 256 := by
  simp [checksum]

@[simp] theorem sumBytes_nil : sumBytes [] = 0 := rfl

@[simp] theorem sumBytes_cons (b : Byte) (bs : Bytes) : sumBytes (b :: bs) = b.toNat + sumBytes bs := rfl

@[simp] theorem sumBytes_append (as bs : Bytes) : sumBytes (as ++ bs) = sumBytes as + sumBytes bs := by
  simp [sumBytes]

/-- A frame with its bytes named. -/
theorem encodeFrame_cons (d h : Byte) (c : Command) (data : Bytes) :
    encodeFrame d h c data = Config.stx :: lenByte data :: d :: h :: Command.msb c :: Command.lsb c ::
      (data ++ [checksum (lenByte data) d h (Command.msb c) (Command.lsb c) data]) := rfl

/-- R103: the receiver on a script that holds seven bytes and as many data bytes as the LEN byte says. -/
theorem rxFrame_took {n d h m l c : Byte} {data : Bytes} {s : State} {ds : List RxDraw} (hn : data.length = n.toNat)
    (hs : s.rxDraws = (Config.stx :: n :: d :: h :: m :: l :: (data ++ [c])).map .byte ++ ds) :
    rxFrame s = verify n d h m l data c (s.took (Config.stx :: n :: d :: h :: m :: l :: (data ++ [c])) ds) := by
  rw [rxFrame, rxByte_took _ hs, Port.ok_bind]
  simp only [ne_eq, not_true_eq_false, ↓reduceIte]
  rw [rxBody, rxByte_took _ rfl, Port.ok_bind, rxByte_took _ rfl, Port.ok_bind, rxByte_took _ rfl, Port.ok_bind,
    rxByte_took _ rfl, Port.ok_bind, rxByte_took _ rfl, Port.ok_bind, ← hn,
    rxBytes_took data (ds := .byte c :: ds) (by simp), Port.ok_bind, rxByte_took _ rfl, Port.ok_bind]
  simp

/-- R103: the receiver takes a scripted frame whole, and nothing after it. -/
theorem rxFrame_frame {d h : Byte} {c : Command} {data : Bytes} (hd : data.length ≤ 255) {s : State}
    {ds : List RxDraw} (hs : s.rxDraws = (encodeFrame d h c data).map .byte ++ ds) :
    rxFrame s = .ok ⟨d, h, c, data⟩ (s.took (encodeFrame d h c data) ds) := by
  rw [encodeFrame_cons] at hs ⊢
  rw [rxFrame_took (lenByte_toNat hd).symm hs]
  simp [verify]

/-- R162: a transaction whose frame is accepted and whose reply is scripted. -/
theorem transact_frame {dev hostbyte : Byte} {cmd : Command} {sent : Bytes} {d h : Byte} {c : Command} {data : Bytes}
    (hd : data.length ≤ 255) {s : State} {ts : List TxDraw} {ds : List RxDraw} (ht : s.txDraws = .accepted :: ts)
    (hs : s.rxDraws = (encodeFrame d h c data).map .byte ++ ds) :
    transact dev hostbyte cmd sent s = .ok data { s with
      txDraws := ts, rxDraws := ds,
      trace := s.trace ++ .tx (encodeFrame dev hostbyte cmd sent) (encodeFrame dev hostbyte cmd sent).length ::
        (encodeFrame d h c data).map .rx } := by
  rw [transact, txSend_accepted ht, Port.ok_bind, rxFrame_frame hd (ds := ds) (by exact hs), Port.ok_bind]
  simp [State.took]

/-- R162: a control command with a scripted one-byte reply. -/
theorem controlReply_frame {dev hostbyte : Byte} {cmd : Command} {sent : Bytes} {d h : Byte} {c : Command} {b : Byte}
    {s : State} {ts : List TxDraw} {ds : List RxDraw} (ht : s.txDraws = .accepted :: ts)
    (hs : s.rxDraws = (encodeFrame d h c [b]).map .byte ++ ds) :
    controlReply dev hostbyte cmd sent s = .ok b { s with
      txDraws := ts, rxDraws := ds,
      trace := s.trace ++ .tx (encodeFrame dev hostbyte cmd sent) (encodeFrame dev hostbyte cmd sent).length ::
        (encodeFrame d h c [b]).map .rx } := by
  rw [controlReply, transact_frame (by simp) ht hs, Port.ok_bind]

end Sys2Proof.Machine
end

