-- ==== Sys2Proof/Laws/Meanings.lean ====
section
/-! SUPPORT. Everything each meaning can do: for every operation, the cases in which it gives a next state. -/

namespace Sys2Proof.Machine

theorem exec_operation (i : Instr) (s : State) : exec i s = exec (operation i) s := by cases i <;> rfl

theorem atRest_next {s t : State} {k : Result} (h : atRest s k = .next t) : s.fsm ≠ .registering ∧ k = .next t := by
  unfold atRest at h
  split at h
  · cases h
  · exact ⟨‹_›, h⟩

@[simp] theorem atRest_of_ne {s : State} (h : s.fsm ≠ .registering) (k : Result) : atRest s k = k := if_neg h

theorem withinLane_next {data : Bytes} {t : State} {k : Result} (h : withinLane data k = .next t) :
    data.length ≤ 255 ∧ k = .next t := by
  unfold withinLane at h
  split at h
  · exact ⟨(dataFits_iff data).1 ‹_›, h⟩
  · cases h

/-- R203: what the admission of a transmitting operation can do. -/
theorem whenLegal_next {legal : Fsm → Bool} {s t : State} {k : Result} (h : whenLegal legal s k = .next t) :
    s.fsm ≠ .registering ∧
      ((s.out = true ∧ t = s.answer (Response.error .busy s)) ∨
        (s.out = false ∧ legal s.fsm = false ∧ t = s.answer (Response.error .fsmState s)) ∨
        (s.out = false ∧ legal s.fsm = true ∧ k = .next t)) := by
  obtain ⟨hr, h⟩ := atRest_next h
  refine ⟨hr, ?_⟩
  split at h
  · exact .inl ⟨‹_›, by simpa using h.symm⟩
  · split at h
    · exact .inr (.inr ⟨by simpa using ‹¬s.out = true›, ‹_›, h⟩)
    · exact .inr (.inl ⟨by simpa using ‹¬s.out = true›, by simpa using ‹¬legal s.fsm = true›, by simpa using h.symm⟩)

theorem whenLegal_go {legal : Fsm → Bool} {s : State} (hr : s.fsm ≠ .registering) (ho : s.out = false)
    (hl : legal s.fsm = true) (k : Result) : whenLegal legal s k = k := by
  simp [whenLegal, hr, ho, hl]

theorem withAddresses_next {s t : State} {k : Byte → Byte → Result} (h : withAddresses s k = .next t) :
    ∃ d a, s.dev = some d ∧ s.host = some a ∧ k d a = .next t := by
  unfold withAddresses withDev at h
  split at h
  · split at h
    · exact ⟨_, _, ‹_›, ‹_›, h⟩
    · cases h
  · cases h

theorem withAddresses_some {s : State} {d a : Byte} (hd : s.dev = some d) (ha : s.host = some a)
    (k : Byte → Byte → Result) : withAddresses s k = k d a := by
  simp [withAddresses, withDev, hd, ha]

/-- R161: the states each operation is admitted in. -/
def legalIn (i : Instr) (f : Fsm) : Bool :=
  match i with
  | .config _ => f == .disconnected
  | .reghost _ => f == .disconnected
  | .assign => f == .registered
  | .mstatus => connected f
  | .release => f == .master
  | .send _ _ => connected f
  | _ => true

/-- An admission error: the operation's response and nothing else (R203, R205). -/
def Refused (i : Instr) (s t : State) (e : Err) : Prop :=
  t = s.answer (Response.error e s) ∧
    match e with
    | .busy => s.out = true ∧ i ≠ .recv ∧ i ≠ .check
    | .fsmState => s.out = false ∧ legalIn i s.fsm = false
    | .noDevice => s.out = false ∧ s.fsm = .disconnected ∧ s.dev = none ∧ ∃ id, i = .reghost id
    | .notOutstanding => s.out = false ∧ i = .recv
    | .noPayload => s.pay = none ∧ i = .check
    | .cmd => s.out = false ∧ connected s.fsm = true ∧ ∃ c data, i = .send c data ∧ isControl c = true
    | _ => False

theorem config_next {d : Byte} {s t : State} (h : exec (.config d) s = .next t) :
    s.fsm ≠ .registering ∧ ((∃ e, Refused (.config d) s t e) ∨
      (s.out = false ∧ s.fsm = .disconnected ∧
        t = { s with dev := some d }.answer (Response.base { s with dev := some d }))) := by
  change config d s = _ at h
  unfold config at h
  obtain ⟨hr, ⟨ho, h⟩ | ⟨ho, hl, h⟩ | ⟨ho, hl, h⟩⟩ := whenLegal_next h <;> refine ⟨hr, ?_⟩
  · exact .inl ⟨.busy, h, ho, by simp, by simp⟩
  · exact .inl ⟨.fsmState, h, ho, hl⟩
  · exact .inr ⟨ho, by simpa using hl, by simpa using h.symm⟩

theorem send_next {c : Command} {data : Bytes} {s t : State} (h : exec (.send c data) s = .next t) :
    s.fsm ≠ .registering ∧ data.length ≤ 255 ∧ ((∃ e, Refused (.send c data) s t e) ∨
      (s.out = false ∧ connected s.fsm = true ∧ isControl c = false ∧ ∃ d a, s.dev = some d ∧ s.host = some a ∧
        ((∃ s', txSend d a c data s = .ok () s' ∧
            t = { s' with out := true, pay := none }.answer (Response.base { s' with out := true, pay := none })) ∨
          (∃ e s', txSend d a c data s = .raised e s' ∧ t = s'.answer (Response.error e s')) ∨
          ∃ s', txSend d a c data s = .aborted s' ∧ t = resetRegisters s'))) := by
  obtain ⟨hf, h⟩ := withinLane_next h
  obtain ⟨hr, ⟨ho, h⟩ | ⟨ho, hl, h⟩ | ⟨ho, hl, h⟩⟩ := whenLegal_next h <;> refine ⟨hr, hf, ?_⟩
  · exact .inl ⟨.busy, h, ho, by simp, by simp⟩
  · exact .inl ⟨.fsmState, h, ho, hl⟩
  · split at h
    · exact .inl ⟨.cmd, by simpa using h.symm, ho, hl, c, data, rfl, ‹_›⟩
    · obtain ⟨d, a, hd, ha, h⟩ := withAddresses_next h
      rw [memRead_whole] at h
      refine .inr ⟨ho, hl, by simpa using ‹¬isControl c = true›, d, a, hd, ha, ?_⟩
      rcases Port.conclude_next h with ⟨_, s', hs, h⟩ | ⟨e, s', hs, h⟩ | ⟨s', hs, h⟩
      · exact .inl ⟨s', hs, by simpa using h.symm⟩
      · exact .inr (.inl ⟨e, s', hs, by simpa using h.symm⟩)
      · exact .inr (.inr ⟨s', hs, h⟩)

theorem recv_next {s t : State} (h : exec .recv s = .next t) :
    s.fsm ≠ .registering ∧ ((∃ e, Refused .recv s t e) ∨
      (s.out = true ∧
        ((∃ f s', rxFrame { s with out := false, pay := none } = .ok f s' ∧
            t = { s' with pay := some f }.answer (Response.received f s')) ∨
          (∃ e s', rxFrame { s with out := false, pay := none } = .raised e s' ∧
            t = s'.answer (Response.error e s')) ∨
          ∃ s', rxFrame { s with out := false, pay := none } = .aborted s' ∧ t = resetRegisters s'))) := by
  obtain ⟨hr, h⟩ := atRest_next h
  refine ⟨hr, ?_⟩
  split at h
  · refine .inr ⟨‹_›, ?_⟩
    rcases Port.conclude_next h with ⟨f, s', hs, h⟩ | ⟨e, s', hs, h⟩ | ⟨s', hs, h⟩
    · exact .inl ⟨f, s', hs, by simpa using h.symm⟩
    · exact .inr (.inl ⟨e, s', hs, by simpa using h.symm⟩)
    · exact .inr (.inr ⟨s', hs, h⟩)
  · exact .inl ⟨.notOutstanding, by simpa using h.symm, by simpa using ‹¬s.out = true›, rfl⟩

theorem check_next {s t : State} (h : exec .check s = .next t) :
    s.fsm ≠ .registering ∧ ((∃ e, Refused .check s t e) ∨ ∃ f, s.pay = some f ∧
      ((∃ code, deviceError Config.params f.data = some code ∧ t = s.answer (Response.error (.device code) s)) ∨
        (deviceError Config.params f.data = none ∧ t = s.answer ((Response.base s).withPayload f.data)))) := by
  obtain ⟨hr, h⟩ := atRest_next h
  refine ⟨hr, ?_⟩
  split at h
  · exact .inl ⟨.noPayload, by simpa using h.symm, ‹_›, rfl⟩
  · refine .inr ⟨_, ‹_›, ?_⟩
    split at h
    · exact .inl ⟨_, ‹_›, by simpa using h.symm⟩
    · exact .inr ⟨‹_›, by simpa using h.symm⟩

theorem reghost_next {id : Bytes} {s t : State} (h : exec (.reghost id) s = .next t) :
    s.fsm ≠ .registering ∧ id.length ≤ 255 ∧ ((∃ e, Refused (.reghost id) s t e) ∨
      (s.out = false ∧ s.fsm = .disconnected ∧ ∃ d, s.dev = some d ∧
        ((∃ b s', controlReply d Config.params.regHostField Config.regHost id { s with fsm := .registering } = .ok b s' ∧
            t = { s' with host := some b, fsm := .registered }.answer
              (Response.base { s' with host := some b, fsm := .registered })) ∨
          (∃ e s', controlReply d Config.params.regHostField Config.regHost id { s with fsm := .registering } =
              .raised e s' ∧
            t = { s' with fsm := .disconnected }.answer (Response.error e { s' with fsm := .disconnected })) ∨
          ∃ s', controlReply d Config.params.regHostField Config.regHost id { s with fsm := .registering } =
              .aborted s' ∧ t = resetRegisters s'))) := by
  obtain ⟨hf, h⟩ := withinLane_next h
  obtain ⟨hr, ⟨ho, h⟩ | ⟨ho, hl, h⟩ | ⟨ho, hl, h⟩⟩ := whenLegal_next h <;> refine ⟨hr, hf, ?_⟩
  · exact .inl ⟨.busy, h, ho, by simp, by simp⟩
  · exact .inl ⟨.fsmState, h, ho, hl⟩
  · have hl : s.fsm = .disconnected := by simpa using hl
    split at h
    · exact .inl ⟨.noDevice, by simpa using h.symm, ho, hl, by simpa using ‹s.dev.isNone = true›, id, rfl⟩
    · unfold withDev at h
      split at h
      · rw [memRead_whole] at h
        refine .inr ⟨ho, hl, _, ‹_›, ?_⟩
        rcases Port.conclude_next h with ⟨b, s', hs, h⟩ | ⟨e, s', hs, h⟩ | ⟨s', hs, h⟩
        · exact .inl ⟨b, s', hs, by simpa using h.symm⟩
        · exact .inr (.inl ⟨e, s', hs, by simpa [registrationFailed] using h.symm⟩)
        · exact .inr (.inr ⟨s', hs, h⟩)
      · cases h

theorem assign_next {s t : State} (h : exec .assign s = .next t) :
    s.fsm ≠ .registering ∧ ((∃ e, Refused .assign s t e) ∨
      (s.out = false ∧ s.fsm = .registered ∧ ∃ d a, s.dev = some d ∧ s.host = some a ∧
        ((∃ s', masterSet d a Config.assignByte s = .ok () s' ∧
            t = { s' with fsm := .master }.answer (Response.base { s' with fsm := .master })) ∨
          (∃ e s', masterSet d a Config.assignByte s = .raised e s' ∧ t = s'.answer (Response.error e s')) ∨
          ∃ s', masterSet d a Config.assignByte s = .aborted s' ∧ t = resetRegisters s'))) := by
  change assign s = _ at h
  unfold assign at h
  obtain ⟨hr, ⟨ho, h⟩ | ⟨ho, hl, h⟩ | ⟨ho, hl, h⟩⟩ := whenLegal_next h <;> refine ⟨hr, ?_⟩
  · exact .inl ⟨.busy, h, ho, by simp, by simp⟩
  · exact .inl ⟨.fsmState, h, ho, hl⟩
  · obtain ⟨d, a, hd, ha, h⟩ := withAddresses_next h
    refine .inr ⟨ho, by simpa using hl, d, a, hd, ha, ?_⟩
    rcases Port.conclude_next h with ⟨_, s', hs, h⟩ | ⟨e, s', hs, h⟩ | ⟨s', hs, h⟩
    · exact .inl ⟨s', hs, by simpa using h.symm⟩
    · exact .inr (.inl ⟨e, s', hs, by simpa using h.symm⟩)
    · exact .inr (.inr ⟨s', hs, h⟩)

theorem mstatus_next {s t : State} (h : exec .mstatus s = .next t) :
    s.fsm ≠ .registering ∧ ((∃ e, Refused .mstatus s t e) ∨
      (s.out = false ∧ connected s.fsm = true ∧ ∃ d a, s.dev = some d ∧ s.host = some a ∧
        ((∃ b s', controlReply d a Config.masterGet [] s = .ok b s' ∧
            t = { s' with ms := some (masterFlags Config.params.msBitMap b) }.answer
              (Response.masterStatus (masterFlags Config.params.msBitMap b) s')) ∨
          (∃ e s', controlReply d a Config.masterGet [] s = .raised e s' ∧ t = s'.answer (Response.error e s')) ∨
          ∃ s', controlReply d a Config.masterGet [] s = .aborted s' ∧ t = resetRegisters s'))) := by
  change mstatus Config.params s = _ at h
  unfold mstatus at h
  obtain ⟨hr, ⟨ho, h⟩ | ⟨ho, hl, h⟩ | ⟨ho, hl, h⟩⟩ := whenLegal_next h <;> refine ⟨hr, ?_⟩
  · exact .inl ⟨.busy, h, ho, by simp, by simp⟩
  · exact .inl ⟨.fsmState, h, ho, hl⟩
  · obtain ⟨d, a, hd, ha, h⟩ := withAddresses_next h
    refine .inr ⟨ho, hl, d, a, hd, ha, ?_⟩
    rcases Port.conclude_next h with ⟨b, s', hs, h⟩ | ⟨e, s', hs, h⟩ | ⟨s', hs, h⟩
    · exact .inl ⟨b, s', hs, by simpa using h.symm⟩
    · exact .inr (.inl ⟨e, s', hs, by simpa using h.symm⟩)
    · exact .inr (.inr ⟨s', hs, h⟩)

theorem release_next {s t : State} (h : exec .release s = .next t) :
    s.fsm ≠ .registering ∧ ((∃ e, Refused .release s t e) ∨
      (s.out = false ∧ s.fsm = .master ∧ ∃ d a, s.dev = some d ∧ s.host = some a ∧
        ((∃ s', masterSet d a Config.releaseByte s = .ok () s' ∧
            t = { s' with fsm := .registered }.answer (Response.base { s' with fsm := .registered })) ∨
          (∃ e s', masterSet d a Config.releaseByte s = .raised e s' ∧ t = s'.answer (Response.error e s')) ∨
          ∃ s', masterSet d a Config.releaseByte s = .aborted s' ∧ t = resetRegisters s'))) := by
  change release s = _ at h
  unfold release at h
  obtain ⟨hr, ⟨ho, h⟩ | ⟨ho, hl, h⟩ | ⟨ho, hl, h⟩⟩ := whenLegal_next h <;> refine ⟨hr, ?_⟩
  · exact .inl ⟨.busy, h, ho, by simp, by simp⟩
  · exact .inl ⟨.fsmState, h, ho, hl⟩
  · obtain ⟨d, a, hd, ha, h⟩ := withAddresses_next h
    refine .inr ⟨ho, by simpa using hl, d, a, hd, ha, ?_⟩
    rcases Port.conclude_next h with ⟨_, s', hs, h⟩ | ⟨e, s', hs, h⟩ | ⟨s', hs, h⟩
    · exact .inl ⟨s', hs, by simpa using h.symm⟩
    · exact .inr (.inl ⟨e, s', hs, by simpa using h.symm⟩)
    · exact .inr (.inr ⟨s', hs, h⟩)

/-- The state and response a DISCONNECT ends with (R190). -/
def ended (failed : Bool) (s : State) : State :=
  (endSession s).answer { Response.base (endSession s) with warn := releaseWarn failed }

theorem disconnect_next {s t : State} (h : exec .disconnect s = .next t) :
    s.fsm ≠ .registering ∧ ((∃ e, Refused .disconnect s t e) ∨
      (s.out = false ∧
        ((s.fsm ≠ .master ∧ t = ended false s) ∨
          (s.fsm = .master ∧ ∃ d a, s.dev = some d ∧ s.host = some a ∧
            ((∃ s', masterSet d a Config.releaseByte s = .ok () s' ∧ t = ended false s') ∨
              (∃ e s', masterSet d a Config.releaseByte s = .raised e s' ∧ t = ended true s') ∨
              ∃ s', masterSet d a Config.releaseByte s = .aborted s' ∧ t = resetRegisters s'))))) := by
  change disconnect s = _ at h
  unfold disconnect at h
  obtain ⟨hr, ⟨ho, h⟩ | ⟨ho, hl, h⟩ | ⟨ho, hl, h⟩⟩ := whenLegal_next h <;> refine ⟨hr, ?_⟩
  · exact .inl ⟨.busy, h, ho, by simp, by simp⟩
  · cases hl
  · refine .inr ⟨ho, ?_⟩
    split at h
    · obtain ⟨d, a, hd, ha, h⟩ := withAddresses_next h
      refine .inr ⟨‹_›, d, a, hd, ha, ?_⟩
      rcases Port.conclude_next h with ⟨_, s', hs, h⟩ | ⟨e, s', hs, h⟩ | ⟨s', hs, h⟩
      · exact .inl ⟨s', hs, by simpa [disconnected, ended] using h.symm⟩
      · exact .inr (.inl ⟨e, s', hs, by simpa [disconnected, ended] using h.symm⟩)
      · exact .inr (.inr ⟨s', hs, h⟩)
    · exact .inl ⟨‹_›, by simpa [disconnected, ended] using h.symm⟩

/-! ### The step -/

/-- Everything a step can do. -/
theorem step_next {s t : State} (h : step s = .next t) :
    (s.inputs = [] ∧ t = s) ∨
      (∃ ins, (s.inputs = .reset :: ins ∨ ∃ it, s.inputs = .aborted it :: ins) ∧
        t = resetRegisters { s with inputs := ins }) ∨
      (∃ it ins i, s.inputs = .item it :: ins ∧ decode it = .ok i ∧ exec i { s with inputs := ins } = .next t) ∨
      ∃ it ins e, s.inputs = .item it :: ins ∧ decode it = .error e ∧ e ≠ .laneMismatch ∧ s.fsm ≠ .registering ∧
        t = { s with inputs := ins }.answer (Response.error .illegal { s with inputs := ins }) := by
  unfold step fetch at h
  rcases hi : s.inputs with _ | ⟨_ | _ | _, ins⟩ <;> simp only [hi] at h
  · exact .inl ⟨rfl, by simpa using h.symm⟩
  · rename_i it
    rcases hd : decode it with e | i <;> simp only [hd] at h
    · by_cases he : e = .laneMismatch
      · simp [he] at h
      · refine .inr (.inr (.inr ⟨it, ins, e, rfl, hd, he, ?_⟩))
        have h : illegalRequest { s with inputs := ins } = .next t := by
          cases e <;> first | exact absurd rfl he | exact h
        obtain ⟨hr, h⟩ := atRest_next h
        exact ⟨hr, by simpa using h.symm⟩
    · exact .inr (.inr (.inl ⟨it, ins, i, rfl, hd, h⟩))
  · exact .inr (.inl ⟨ins, .inl rfl, by simpa using h.symm⟩)
  · exact .inr (.inl ⟨ins, .inr ⟨_, rfl⟩, by simpa using h.symm⟩)

end Sys2Proof.Machine
end

