-- ==== Sys2Proof/Laws/Effects.lean ====
section
/-! SUPPORT. What every operation can do, said once: its port traffic, the registers it leaves and its response. -/

namespace Sys2Proof.Machine

/-- The state `s` with the registers `g`. -/
def State.withRegisters (s : State) (g : Registers) : State :=
  { s with fsm := g.fsm, dev := g.dev, host := g.host, out := g.out, pay := g.pay, ms := g.ms }

@[simp] theorem withRegisters_registers (s : State) (g : Registers) : (s.withRegisters g).registers = g := rfl
@[simp] theorem withRegisters_inputs (s : State) (g : Registers) : (s.withRegisters g).inputs = s.inputs := rfl
@[simp] theorem withRegisters_responses (s : State) (g : Registers) : (s.withRegisters g).responses = s.responses := rfl
@[simp] theorem withRegisters_trace (s : State) (g : Registers) : (s.withRegisters g).trace = s.trace := rfl
@[simp] theorem withRegisters_fsm (s : State) (g : Registers) : (s.withRegisters g).fsm = g.fsm := rfl
@[simp] theorem withRegisters_dev (s : State) (g : Registers) : (s.withRegisters g).dev = g.dev := rfl
@[simp] theorem withRegisters_host (s : State) (g : Registers) : (s.withRegisters g).host = g.host := rfl
@[simp] theorem withRegisters_out (s : State) (g : Registers) : (s.withRegisters g).out = g.out := rfl
@[simp] theorem withRegisters_pay (s : State) (g : Registers) : (s.withRegisters g).pay = g.pay := rfl
@[simp] theorem withRegisters_ms (s : State) (g : Registers) : (s.withRegisters g).ms = g.ms := rfl

/-- The errors of a MASTER_SET exchange (R162, R175, R185). -/
def MasterSetError (e : Err) : Prop :=
  e = .timeoutTx ∨ ReceiveError e ∨ e = .badReplyLen ∨ ∃ r : Byte, r ≠ 0 ∧ e = .device (r.setWidth 16)

/-- The errors of the other control exchanges (R162). -/
def ControlError (e : Err) : Prop := e = .timeoutTx ∨ ReceiveError e ∨ e = .badReplyLen

/-- The frames an operation may offer and the registers they come from (R76, R77); CONFIG, RECV and CHECK offer none. -/
def Offers (i : Instr) (s : State) (f : Bytes) : Prop :=
  match i with
  | .reghost id => ∃ d, s.dev = some d ∧ f = encodeFrame d Config.params.regHostField Config.regHost id
  | .assign => ∃ d h, s.dev = some d ∧ s.host = some h ∧ f = encodeFrame d h Config.masterSet [Config.assignByte]
  | .mstatus => ∃ d h, s.dev = some d ∧ s.host = some h ∧ f = encodeFrame d h Config.masterGet []
  | .release => ∃ d h, s.dev = some d ∧ s.host = some h ∧ f = encodeFrame d h Config.masterSet [Config.releaseByte]
  | .disconnect => ∃ d h, s.dev = some d ∧ s.host = some h ∧ f = encodeFrame d h Config.masterSet [Config.releaseByte]
  | .send c data => ∃ d h, s.dev = some d ∧ s.host = some h ∧ f = encodeFrame d h c data
  | _ => False

/-- The port calls of one operation: at most one `TxFrame`, then at most 262 `RxByte` calls; SEND makes no `RxByte`
call and RECV no `TxFrame` call. -/
def Calls (i : Instr) (s : State) (evs : List PortEvent) : Prop :=
  (∃ f k rx, Offers i s f ∧ k ≤ f.length ∧ evs = .tx f k :: rx ∧ (∀ e ∈ rx, PortEvent.isRx e = true) ∧
    rx.length ≤ 262 ∧ (∀ c data, i = .send c data → rx = [])) ∨
  (i = .recv ∧ (∀ e ∈ evs, PortEvent.isRx e = true) ∧ evs.length ≤ 262) ∨
  evs = []

/-- How an admitted operation that no reset aborts ends: the registers `g` it leaves and the response it delivers, whose
snapshot is that of `g`. -/
def Ends (i : Instr) (s : State) (g : Registers) (r : Response) : Prop :=
  match i with
  | .config d => s.out = false ∧ s.fsm = .disconnected ∧ g = { s.registers with dev := some d } ∧
      r = Response.base (s.withRegisters g)
  | .reghost _ => s.out = false ∧ s.fsm = .disconnected ∧ s.dev.isSome = true ∧
      ((∃ b, g = { s.registers with host := some b, fsm := .registered } ∧ r = Response.base (s.withRegisters g)) ∨
        ∃ e, ControlError e ∧ g = s.registers ∧ r = Response.error e (s.withRegisters g))
  | .assign => s.out = false ∧ s.fsm = .registered ∧
      ((g = { s.registers with fsm := .master } ∧ r = Response.base (s.withRegisters g)) ∨
        ∃ e, MasterSetError e ∧ g = s.registers ∧ r = Response.error e (s.withRegisters g))
  | .mstatus => s.out = false ∧ connected s.fsm = true ∧
      ((∃ m, g = { s.registers with ms := some m } ∧ r = Response.masterStatus m (s.withRegisters g)) ∨
        ∃ e, ControlError e ∧ g = s.registers ∧ r = Response.error e (s.withRegisters g))
  | .release => s.out = false ∧ s.fsm = .master ∧
      ((g = { s.registers with fsm := .registered } ∧ r = Response.base (s.withRegisters g)) ∨
        ∃ e, MasterSetError e ∧ g = s.registers ∧ r = Response.error e (s.withRegisters g))
  | .disconnect => s.out = false ∧ g = { s.registers with fsm := .disconnected, host := none, ms := none, pay := none } ∧
      ∃ failed, r = { Response.base (s.withRegisters g) with warn := releaseWarn failed }
  | .send c _ => s.out = false ∧ connected s.fsm = true ∧ isControl c = false ∧
      ((g = { s.registers with out := true, pay := none } ∧ r = Response.base (s.withRegisters g)) ∨
        (g = s.registers ∧ r = Response.error .timeoutTx (s.withRegisters g)))
  | .recv => s.out = true ∧
      ((∃ f, f.data.length ≤ 255 ∧ g = { s.registers with out := false, pay := some f } ∧
          r = Response.received f (s.withRegisters g)) ∨
        ∃ e, ReceiveError e ∧ g = { s.registers with out := false, pay := none } ∧
          r = Response.error e (s.withRegisters g))
  | .check => g = s.registers ∧ ∃ f, s.pay = some f ∧
      ((∃ code, r = Response.error (.device code) (s.withRegisters g)) ∨
        r = (Response.base (s.withRegisters g)).withPayload f.data)
  | _ => False

/-- Between `s` and `t` the port calls `evs` happened, the registers became `g`, and `rs` was delivered. -/
structure Changed (s t : State) (evs : List PortEvent) (g : Registers) (rs : List Response) : Prop where
  registers : t.registers = g
  inputs : t.inputs = s.inputs
  trace : t.trace = s.trace ++ evs
  responses : t.responses = s.responses ++ rs

theorem Changed.answer {s s' : State} {evs : List PortEvent} {g : Registers} (h : Traffic s s' evs) (r : Response) :
    Changed s ((s'.withRegisters g).answer r) evs g [r] :=
  ⟨rfl, by simp [h.inputs], by simp [h.trace], by simp [h.responses]⟩

theorem Changed.reset {s s' : State} {evs : List PortEvent} (h : Traffic s s' evs) :
    Changed s (resetRegisters s') evs State.reset.registers [] :=
  ⟨rfl, by simp [h.inputs], by simp [h.trace], by simp [h.responses]⟩

/-- The error response depends on the registers alone. -/
theorem error_eq_of_registers {s t : State} (h : s.registers = t.registers) (e : Err) :
    Response.error e s = Response.error e t := by
  simp [Response.error, base_eq_of_registers h]

theorem state?_ok {α : Type} {p : Port α} {a : α} {s : State} (h : p = .ok a s) : p.state? = some s := by rw [h]; rfl
theorem state?_raised {α : Type} {p : Port α} {e : Err} {s : State} (h : p = .raised e s) : p.state? = some s := by
  rw [h]; rfl
theorem state?_aborted {α : Type} {p : Port α} {s : State} (h : p = .aborted s) : p.state? = some s := by rw [h]; rfl

theorem Exchange.calls {i : Instr} {s s' : State} {f : Bytes} (h : Exchange f s s') (hf : Offers i s f)
    (hi : ∀ c data, i ≠ .send c data) : ∃ evs, Calls i s evs ∧ Traffic s s' evs := by
  obtain ⟨k, rx, hk, ht, hr, hl⟩ := h
  exact ⟨_, .inl ⟨f, k, rx, hf, hk, rfl, hr, hl, fun c data h => absurd h (hi c data)⟩, ht⟩

theorem rxBytes_length {n : Nat} {bs : Bytes} {s t : State} (h : rxBytes n s = .ok bs t) : bs.length = n := by
  induction n generalizing s t bs with
  | zero => simp only [rxBytes, Port.ok.injEq] at h; simp [← h.1]
  | succ n ih =>
    obtain ⟨b, s', -, h⟩ := Port.bind_ok.1 h
    obtain ⟨bs', s'', h, h'⟩ := Port.bind_ok.1 h
    simp only [Port.ok.injEq] at h'
    simp [← h'.1, ih h]

/-- R71, R103: a received frame has at most 255 data bytes. -/
theorem rxFrame_length {f : Frame} {s t : State} (h : rxFrame s = .ok f t) : f.data.length ≤ 255 := by
  obtain ⟨b, s, -, h⟩ := Port.bind_ok.1 h
  split at h
  · simp at h
  obtain ⟨n, _, -, h⟩ := Port.bind_ok.1 h
  obtain ⟨_, _, -, h⟩ := Port.bind_ok.1 h
  obtain ⟨_, _, -, h⟩ := Port.bind_ok.1 h
  obtain ⟨_, _, -, h⟩ := Port.bind_ok.1 h
  obtain ⟨_, _, -, h⟩ := Port.bind_ok.1 h
  obtain ⟨data, _, hd, h⟩ := Port.bind_ok.1 h
  obtain ⟨_, _, -, h⟩ := Port.bind_ok.1 h
  unfold verify at h
  split at h <;> simp only [Port.ok.injEq, reduceCtorEq] at h
  rw [← h.1, rxBytes_length hd]
  have := n.isLt
  omega

/-- Everything an operation can do: be refused, end, or be aborted by a reset. -/
def Went (i : Instr) (s t : State) : Prop :=
  (∃ e, Refused i s t e) ∨
    ∃ evs, Calls i s evs ∧
      ((∃ g r, Ends i s g r ∧ Changed s t evs g [r]) ∨ Changed s t evs State.reset.registers [])

theorem Refused.went {i : Instr} {s t : State} {e : Err} (h : Refused i s t e) : Went i s t := .inl ⟨e, h⟩

/-- An operation whose traffic ended in `s'`, leaving the registers `g` and delivering `r`. -/
theorem Went.ends {i : Instr} {s s' t : State} (hx : ∃ evs, Calls i s evs ∧ Traffic s s' evs) (g : Registers)
    (r : Response) (h1 : t.registers = g) (h2 : t.inputs = s'.inputs) (h3 : t.responses = s'.responses ++ [r])
    (h4 : t.trace = s'.trace) (he : Ends i s g r) : Went i s t := by
  obtain ⟨evs, hc, ht⟩ := hx
  exact .inr ⟨evs, hc, .inl ⟨g, r, he, h1, h2.trans ht.inputs, by rw [h4, ht.trace], by rw [h3, ht.responses]⟩⟩

theorem Went.aborted {i : Instr} {s s' : State} (hx : ∃ evs, Calls i s evs ∧ Traffic s s' evs) :
    Went i s (resetRegisters s') := by
  obtain ⟨evs, hc, ht⟩ := hx
  exact .inr ⟨evs, hc, .inr (.reset ht)⟩

theorem calls_none {i : Instr} (s : State) : ∃ evs, Calls i s evs ∧ Traffic s s evs := ⟨[], .inr (.inr rfl), .refl s⟩

/-- R84: the snapshot of a response is of the registers it is given with. -/
theorem base_with {s : State} (u : State) {g : Registers} (h : u.registers = g) :
    Response.base u = Response.base (s.withRegisters g) := base_eq_of_registers h

theorem error_with {s : State} (u : State) {g : Registers} (e : Err) (h : u.registers = g) :
    Response.error e u = Response.error e (s.withRegisters g) := error_eq_of_registers h e

theorem went_config {d : Byte} {s t : State} (h : exec (.config d) s = .next t) : Went (.config d) s t := by
  obtain ⟨-, ⟨e, h⟩ | ⟨ho, hf, rfl⟩⟩ := config_next h
  · exact h.went
  · exact .ends (calls_none s) { s.registers with dev := some d } _ rfl rfl rfl rfl
      ⟨ho, hf, rfl, base_with _ rfl⟩

theorem went_check {s t : State} (h : exec .check s = .next t) : Went .check s t := by
  obtain ⟨-, ⟨e, h⟩ | ⟨f, hf, ⟨code, -, rfl⟩ | ⟨-, rfl⟩⟩⟩ := check_next h
  · exact h.went
  · exact .ends (calls_none s) s.registers _ rfl rfl rfl rfl ⟨rfl, f, hf, .inl ⟨code, error_with _ _ rfl⟩⟩
  · exact .ends (calls_none s) s.registers _ rfl rfl rfl rfl
      ⟨rfl, f, hf, .inr (by rw [base_with (s := s) s rfl])⟩

theorem went_send {c : Command} {data : Bytes} {s t : State} (h : exec (.send c data) s = .next t) :
    Went (.send c data) s t := by
  obtain ⟨-, hl, ⟨e, h⟩ | ⟨ho, hf, hc, d, a, hd, ha, h⟩⟩ := send_next h
  · exact h.went
  have hx : ∀ {s'}, (txSend d a c data s).state? = some s' →
      (∃ evs, Calls (.send c data) s evs ∧ Traffic s s' evs) ∧ s'.registers = s.registers := fun h => by
    obtain ⟨k, hk, ht⟩ := txSend_traffic h
    exact ⟨⟨_, .inl ⟨_, k, [], ⟨d, a, hd, ha, rfl⟩, hk, rfl, by simp, by simp, by simp⟩, ht⟩, ht.registers⟩
  obtain ⟨s', hs, rfl⟩ | ⟨e, s', hs, rfl⟩ | ⟨s', hs, rfl⟩ := h
  · obtain ⟨hx, hr⟩ := hx (state?_ok hs)
    have hr : ({ s' with out := true, pay := none } : State).registers = { s.registers with out := true, pay := none } := by
      rw [← hr]; rfl
    exact .ends hx _ _ hr rfl rfl rfl ⟨ho, hf, hc, .inl ⟨rfl, base_with _ hr⟩⟩
  · obtain ⟨hx, hr⟩ := hx (state?_raised hs)
    cases txSend_raised hs
    exact .ends hx s.registers _ hr rfl rfl rfl ⟨ho, hf, hc, .inr ⟨rfl, error_with _ _ hr⟩⟩
  · exact .aborted (hx (state?_aborted hs)).1

theorem went_recv {s t : State} (h : exec .recv s = .next t) : Went .recv s t := by
  obtain ⟨-, ⟨e, h⟩ | ⟨ho, h⟩⟩ := recv_next h
  · exact h.went
  have hx : ∀ {s'}, (rxFrame { s with out := false, pay := none }).state? = some s' →
      (∃ evs, Calls .recv s evs ∧ Traffic s { s' with out := s.out, pay := s.pay } evs) ∧
        s'.registers = { s.registers with out := false, pay := none } := fun h => by
    obtain ⟨evs, ht, hr, hl⟩ := rxFrame_traffic h
    refine ⟨⟨_, .inr (.inl ⟨rfl, hr, hl⟩), ?_, ht.inputs, ht.responses, ht.trace⟩, ht.registers⟩
    obtain ⟨h1, h2, h3, -, -, h6⟩ := registers_eq ht.registers
    simp [State.registers, h1, h2, h3, h6]
  obtain ⟨f, s', hs, rfl⟩ | ⟨e, s', hs, rfl⟩ | ⟨s', hs, rfl⟩ := h
  · obtain ⟨hx, hr⟩ := hx (state?_ok hs)
    have hr' : ({ s' with pay := some f } : State).registers = { s.registers with out := false, pay := some f } := by
      obtain ⟨h1, h2, h3, h4, -, h6⟩ := registers_eq (t := { s with out := false, pay := none }) hr
      simp [State.registers, h1, h2, h3, h4, h6]
    refine .ends hx _ _ hr' rfl rfl rfl ⟨ho, .inl ⟨f, rxFrame_length hs, rfl, ?_⟩⟩
    have hb : Response.base s' = Response.base (s.withRegisters _) := base_with { s' with pay := some f } hr'
    rw [Response.received, Response.received, hb]
  · obtain ⟨hx, hr⟩ := hx (state?_raised hs)
    exact .ends hx _ _ hr rfl rfl rfl ⟨ho, .inr ⟨e, rxFrame_raised hs, rfl, error_with _ _ hr⟩⟩
  · exact .aborted (s' := { s' with out := s.out, pay := s.pay }) (hx (state?_aborted hs)).1

theorem masterSet_calls {i : Instr} {s : State} {d a b : Byte}
    (hf : Offers i s (encodeFrame d a Config.masterSet [b])) (hi : ∀ c data, i ≠ .send c data) (s' : State)
    (h : (masterSet d a b s).state? = some s') :
    (∃ evs, Calls i s evs ∧ Traffic s s' evs) ∧ s'.registers = s.registers :=
  ⟨(masterSet_traffic h).calls hf hi, (masterSet_traffic h).registers⟩

theorem went_assign {s t : State} (h : exec .assign s = .next t) : Went .assign s t := by
  obtain ⟨-, ⟨e, h⟩ | ⟨ho, hf, d, a, hd, ha, h⟩⟩ := assign_next h
  · exact h.went
  have hx := masterSet_calls (i := .assign) (s := s) ⟨d, a, hd, ha, rfl⟩ (by simp)
  obtain ⟨s', hs, rfl⟩ | ⟨e, s', hs, rfl⟩ | ⟨s', hs, rfl⟩ := h
  · obtain ⟨hx, hr⟩ := hx _ (state?_ok hs)
    have hr : ({ s' with fsm := .master } : State).registers = { s.registers with fsm := .master } := by
      rw [← hr]; rfl
    exact .ends hx _ _ hr rfl rfl rfl ⟨ho, hf, .inl ⟨rfl, base_with _ hr⟩⟩
  · obtain ⟨hx, hr⟩ := hx _ (state?_raised hs)
    exact .ends hx _ _ hr rfl rfl rfl ⟨ho, hf, .inr ⟨e, masterSet_raised hs, rfl, error_with _ _ hr⟩⟩
  · exact .aborted (hx _ (state?_aborted hs)).1

theorem went_release {s t : State} (h : exec .release s = .next t) : Went .release s t := by
  obtain ⟨-, ⟨e, h⟩ | ⟨ho, hf, d, a, hd, ha, h⟩⟩ := release_next h
  · exact h.went
  have hx := masterSet_calls (i := .release) (s := s) ⟨d, a, hd, ha, rfl⟩ (by simp)
  obtain ⟨s', hs, rfl⟩ | ⟨e, s', hs, rfl⟩ | ⟨s', hs, rfl⟩ := h
  · obtain ⟨hx, hr⟩ := hx _ (state?_ok hs)
    have hr : ({ s' with fsm := .registered } : State).registers = { s.registers with fsm := .registered } := by
      rw [← hr]; rfl
    exact .ends hx _ _ hr rfl rfl rfl ⟨ho, hf, .inl ⟨rfl, base_with _ hr⟩⟩
  · obtain ⟨hx, hr⟩ := hx _ (state?_raised hs)
    exact .ends hx _ _ hr rfl rfl rfl ⟨ho, hf, .inr ⟨e, masterSet_raised hs, rfl, error_with _ _ hr⟩⟩
  · exact .aborted (hx _ (state?_aborted hs)).1

theorem went_disconnect {s t : State} (h : exec .disconnect s = .next t) : Went .disconnect s t := by
  obtain ⟨-, ⟨e, h⟩ | ⟨ho, ⟨-, rfl⟩ | ⟨-, d, a, hd, ha, h⟩⟩⟩ := disconnect_next h
  · exact h.went
  · refine .ends (calls_none s) { s.registers with fsm := .disconnected, host := none, ms := none, pay := none } _ rfl
      rfl rfl rfl ⟨ho, rfl, false, ?_⟩
    rw [base_with (s := s) (endSession s) rfl]
    rfl
  have hx := masterSet_calls (i := .disconnect) (s := s) ⟨d, a, hd, ha, rfl⟩ (by simp)
  have hend : ∀ (s' : State) (failed : Bool), s'.registers = s.registers →
      (∃ evs, Calls .disconnect s evs ∧ Traffic s s' evs) → Went .disconnect s (ended failed s') := by
    intro s' failed hr hx
    have hr : (endSession s').registers =
        { s.registers with fsm := .disconnected, host := none, ms := none, pay := none } := by rw [← hr]; rfl
    refine .ends hx _ _ hr rfl rfl rfl ⟨ho, rfl, failed, ?_⟩
    rw [base_with (s := s) (endSession s') hr]
  obtain ⟨s', hs, rfl⟩ | ⟨e, s', hs, rfl⟩ | ⟨s', hs, rfl⟩ := h
  · exact hend s' false (hx _ (state?_ok hs)).2 (hx _ (state?_ok hs)).1
  · exact hend s' true (hx _ (state?_raised hs)).2 (hx _ (state?_raised hs)).1
  · exact .aborted (hx _ (state?_aborted hs)).1

theorem went_mstatus {s t : State} (h : exec .mstatus s = .next t) : Went .mstatus s t := by
  obtain ⟨-, ⟨e, h⟩ | ⟨ho, hf, d, a, hd, ha, h⟩⟩ := mstatus_next h
  · exact h.went
  have hx : ∀ {s'}, (controlReply d a Config.masterGet [] s).state? = some s' →
      (∃ evs, Calls .mstatus s evs ∧ Traffic s s' evs) ∧ s'.registers = s.registers := fun h =>
    ⟨(controlReply_traffic h).calls ⟨d, a, hd, ha, rfl⟩ (by simp), (controlReply_traffic h).registers⟩
  obtain ⟨b, s', hs, rfl⟩ | ⟨e, s', hs, rfl⟩ | ⟨s', hs, rfl⟩ := h
  · obtain ⟨hx, hr⟩ := hx (state?_ok hs)
    have hr' : ({ s' with ms := some (masterFlags Config.params.msBitMap b) } : State).registers =
        { s.registers with ms := some (masterFlags Config.params.msBitMap b) } := by rw [← hr]; rfl
    refine .ends hx _ _ hr' rfl rfl rfl ⟨ho, hf, .inl ⟨_, rfl, ?_⟩⟩
    have hfsm : s'.fsm = s.fsm := (registers_eq hr).1
    rw [Response.masterStatus, Response.masterStatus, base_with (s := s) s' hr, hfsm]
    rfl
  · obtain ⟨hx, hr⟩ := hx (state?_raised hs)
    exact .ends hx _ _ hr rfl rfl rfl ⟨ho, hf, .inr ⟨e, controlReply_raised hs, rfl, error_with _ _ hr⟩⟩
  · exact .aborted (hx (state?_aborted hs)).1

theorem went_reghost {id : Bytes} {s t : State} (h : exec (.reghost id) s = .next t) : Went (.reghost id) s t := by
  obtain ⟨-, -, ⟨e, h⟩ | ⟨ho, hf, d, hd, h⟩⟩ := reghost_next h
  · exact h.went
  have hx : ∀ {s'}, (controlReply d Config.params.regHostField Config.regHost id
        { s with fsm := .registering }).state? = some s' →
      (∃ evs, Calls (.reghost id) s evs ∧ Traffic s { s' with fsm := s.fsm } evs) ∧
        s'.registers = { s.registers with fsm := .registering } := fun h => by
    obtain ⟨k, rx, hk, ht, hr, hl⟩ := controlReply_traffic h
    refine ⟨⟨_, .inl ⟨_, k, rx, ⟨d, hd, rfl⟩, hk, rfl, hr, hl, by simp⟩, ?_, ht.inputs, ht.responses, ht.trace⟩,
      ht.registers⟩
    obtain ⟨-, h2, h3, h4, h5, h6⟩ := registers_eq ht.registers
    simp [State.registers, h2, h3, h4, h5, h6]
  have hd' : s.dev.isSome = true := by simp [hd]
  obtain ⟨b, s', hs, rfl⟩ | ⟨e, s', hs, rfl⟩ | ⟨s', hs, rfl⟩ := h
  · obtain ⟨hx, hr⟩ := hx (state?_ok hs)
    have hr' : ({ s' with host := some b, fsm := .registered } : State).registers =
        { s.registers with host := some b, fsm := .registered } := by
      obtain ⟨-, h2, -, h4, h5, h6⟩ := registers_eq (t := { s with fsm := .registering }) hr
      simp [State.registers, h2, h4, h5, h6]
    exact .ends hx _ _ hr' rfl rfl rfl ⟨ho, hf, hd', .inl ⟨b, rfl, base_with _ hr'⟩⟩
  · obtain ⟨hx, hr⟩ := hx (state?_raised hs)
    have hr' : ({ s' with fsm := .disconnected } : State).registers = s.registers := by
      obtain ⟨-, h2, h3, h4, h5, h6⟩ := registers_eq (t := { s with fsm := .registering }) hr
      simp [State.registers, h2, h3, h4, h5, h6, hf]
    exact .ends hx _ _ hr' rfl rfl rfl
      ⟨ho, hf, hd', .inr ⟨e, controlReply_raised hs, rfl, error_with _ _ hr'⟩⟩
  · exact .aborted (s' := { s' with fsm := s.fsm }) (hx (state?_aborted hs)).1

/-- Everything an operation can do when it gives a next state. A wire command does what its operation does. -/
theorem exec_went {i : Instr} {s t : State} (h : exec i s = .next t) : Went (operation i) s t := by
  cases i with
  | config d => exact went_config h
  | reghost id => exact went_reghost h
  | assign => exact went_assign h
  | mstatus => exact went_mstatus h
  | release => exact went_release h
  | send c data => exact went_send h
  | recv => exact went_recv h
  | check => exact went_check h
  | disconnect => exact went_disconnect h
  | wireRegHost id => exact went_reghost h
  | wireMasterSetAssign => exact went_assign h
  | wireMasterSetRelease => exact went_release h
  | wireMasterGet => exact went_mstatus h
  | wireDeviceGet c data => exact went_send h
  | wireDeviceSet c data => exact went_send h

end Sys2Proof.Machine
end

