-- ==== Sys2Proof/Laws/PerInstr.lean ====
section
/-! SUPPORT. Per-instruction facts about syntax: the encoding of a well-formed instruction can be delivered and is not
refused as a word (R80, R83). -/

namespace Sys2Proof.Laws

/-- R80, R83: an item the port can deliver and whose request word, if it is one, is neither reserved nor malformed. -/
def legalItem : Item → Prop
  | .request w lane => laneExact w lane = true ∧ illegalWord w = none
  | .frameCommand _ data => data.length ≤ 255

/-- A word without lane, `RSV = 0` and the given legality. -/
theorem legal_bare {op : BitVec 4} {len : Byte} (h2 : op ≠ 2) (h6 : op ≠ 6)
    (h : illegalWord (requestWord op 0 len) = none) : legalItem (.request (requestWord op 0 len) []) := by
  refine ⟨?_, h⟩
  simp only [laneExact, laneLength, op_requestWord]
  rw [if_neg (by rintro (h | h) <;> contradiction)]
  decide

/-- A word whose `LEN` is the length of its lane. -/
theorem legal_lane {op : BitVec 4} {cmd : Command} {data : Bytes} (hop : op = 2 ∨ op = 6) (hd : dataFits data = true)
    (h : illegalWord (requestWord op cmd (lenByte data)) = none) :
    legalItem (.request (requestWord op cmd (lenByte data)) data) := by
  refine ⟨?_, h⟩
  simp only [laneExact, laneLength, op_requestWord, len_requestWord]
  rw [if_pos hop, lenByte_toNat ((Machine.dataFits_iff data).1 hd)]
  exact decide_eq_true rfl

namespace EncodeLegal

/-- The encoding of a well-formed instruction is legal. -/
def Statement (i : Instr) : Prop := i.wf = true → legalItem i.encode

theorem config (dev : Byte) : Statement (.config dev) := fun _ =>
  legal_bare (by decide) (by decide) (by simp [illegalWord])

theorem reghost (id : Bytes) : Statement (.reghost id) := fun h =>
  legal_lane (.inl rfl) h (by simp [illegalWord])

theorem assign : Statement .assign := fun _ => legal_bare (by decide) (by decide) (by decide)

theorem mstatus : Statement .mstatus := fun _ => legal_bare (by decide) (by decide) (by decide)

theorem release : Statement .release := fun _ => legal_bare (by decide) (by decide) (by decide)

theorem send (cmd : Command) (data : Bytes) : Statement (.send cmd data) := fun h =>
  legal_lane (.inr rfl) h (by simp [illegalWord])

theorem recv : Statement .recv := fun _ => legal_bare (by decide) (by decide) (by decide)

theorem check : Statement .check := fun _ => legal_bare (by decide) (by decide) (by decide)

theorem disconnect : Statement .disconnect := fun _ => legal_bare (by decide) (by decide) (by decide)

theorem wireRegHost (id : Bytes) : Statement (.wireRegHost id) := fun h => (Machine.dataFits_iff id).1 h

theorem wireMasterSetAssign : Statement .wireMasterSetAssign := fun _ => show [Config.assignByte].length ≤ 255 by decide

theorem wireMasterSetRelease : Statement .wireMasterSetRelease := fun _ =>
  show [Config.releaseByte].length ≤ 255 by decide

theorem wireMasterGet : Statement .wireMasterGet := fun _ => show ([] : Bytes).length ≤ 255 by decide

theorem wireDeviceGet (cmd : Command) (data : Bytes) : Statement (.wireDeviceGet cmd data) := fun h => by
  simp only [Instr.wf, Bool.and_eq_true] at h
  exact (Machine.dataFits_iff data).1 h.1.1

theorem wireDeviceSet (cmd : Command) (data : Bytes) : Statement (.wireDeviceSet cmd data) := fun h => by
  simp only [Instr.wf, Bool.and_eq_true] at h
  exact (Machine.dataFits_iff data).1 h.1.1

end EncodeLegal

end Sys2Proof.Laws
end

