-- ==== Sys2Proof/Tests/Slice0.lean ====
section
/-! SUPPORT. Tests: expected values come from 95_test_vectors.md and the worked examples of the rules, under the
parameters those vectors take; and a witness for the hypotheses of each statement. -/

namespace Sys2Proof.Tests

open Sys2Proof.Machine

/-! ### Helpers -/

/-- The instantiations of 95_test_vectors.md, with the example detector of its V-FA15. -/
def params : Params where
  regHostField := 0x00
  devcodeWidthPred := 7
  deverr := fun p => match p with
    | a :: b :: _ => if a = 0xEE then some (BitVec.ofNat 8 b.toNat) else none
    | _ => none
  msBitMap := MsBitMap.standard
  tReadMs := 1000

def configured : State := { State.reset with dev := some 0xC8 }
def registered : State := { configured with fsm := .registered, host := some 0x01 }
def master : State := { registered with fsm := .master }
def outstanding : State := { registered with out := true }

/-- The channel accepts one frame, and `rx` follows on RX. -/
def State.channel (s : State) (rx : List RxDraw) : State := { s with txDraws := [.accepted], rxDraws := rx }

def bytes (bs : Bytes) : List RxDraw := bs.map .byte

/-- What a result shows: the status, the bytes sent, the state of the machine after it, and what is left on RX. -/
def shown (r : Result) : Option (Option Byte × Bytes × Fsm × List RxDraw) :=
  match r with
  | .next t => some (t.responses.getLast?.map (·.status), t.txStream, t.fsm, t.rxDraws)
  | .fault _ => none
  | .refused _ => none

/-- One value of the state a result leads to. -/
def after {α : Type} (f : State → α) (r : Result) : Option α :=
  match r with
  | .next t => some (f t)
  | .fault _ => none
  | .refused _ => none

/-- The last response. -/
def answer {α : Type} (f : Response → α) (r : Result) : Option α := (after (·.responses.getLast?.map f) r).join

def sweepMe : Bytes := [0x53, 0x77, 0x65, 0x65, 0x70, 0x4D, 0x65]

/-! ### Decoding: one word of the spec per constructor, and what is refused -/

theorem test_decode_config : decode (.request 0x100000C8 []) = .ok (.config 0xC8) := by decide
theorem test_decode_reghost : decode (.request 0x20000007 sweepMe) = .ok (.reghost sweepMe) := by decide
theorem test_decode_assign : decode (.request 0x30000000 []) = .ok .assign := by decide
theorem test_decode_mstatus : decode (.request 0x40000000 []) = .ok .mstatus := by decide
theorem test_decode_release : decode (.request 0x50000000 []) = .ok .release := by decide
theorem test_decode_send : decode (.request 0x60820702 [0x01, 0x01]) = .ok (.send 0x8207 [0x01, 0x01]) := by decide
theorem test_decode_recv : decode (.request 0x70000000 []) = .ok .recv := by decide
theorem test_decode_check : decode (.request 0x80000000 []) = .ok .check := by decide
theorem test_decode_disconnect : decode (.request 0x90000000 []) = .ok .disconnect := by decide
theorem test_decode_wire_regHost : decode (.frameCommand 0x7FF0 sweepMe) = .ok (.wireRegHost sweepMe) := by decide
theorem test_decode_wire_assign : decode (.frameCommand 0xFFF1 [0x01]) = .ok .wireMasterSetAssign := by decide
theorem test_decode_wire_release : decode (.frameCommand 0xFFF1 [0x00]) = .ok .wireMasterSetRelease := by decide
theorem test_decode_wire_masterGet : decode (.frameCommand 0x7FF1 []) = .ok .wireMasterGet := by decide
theorem test_decode_wire_get : decode (.frameCommand 0x0207 [0x01]) = .ok (.wireDeviceGet 0x0207 [0x01]) := by decide
theorem test_decode_wire_set :
    decode (.frameCommand 0x8207 [0x01, 0x01]) = .ok (.wireDeviceSet 0x8207 [0x01, 0x01]) := by decide

/-- V-RQ1 to V-RQ7 of 95_test_vectors.md. -/
theorem test_decode_refuses :
    [0x00000000, 0xA0000000, 0xF0000000, 0x11000000, 0x30000001, 0x10000100, 0x70000100, 0x90000001].map
      (fun w : RequestWord => (decode (.request w [])).toOption) = List.replicate 8 none := by decide

theorem test_decode_lane : decode (.request 0x20000002 [0x01]) = .error .laneMismatch := by decide

/-- No word has two rows of the opcode table's request map. -/
theorem test_table_rows_apart :
    requestTable.Pairwise fun a b => a.pattern &&& (a.mask &&& b.mask) ≠ b.pattern &&& (a.mask &&& b.mask) := by decide

theorem test_table_word : decodeTableWord 32 0x60000000 = some (.send 0x0000 []) := by decide

/-! ### Well-formedness -/

theorem test_wf_refuses_long_data :
    ([.reghost (List.replicate 256 0), .send 0x0207 (List.replicate 256 0), .wireRegHost (List.replicate 256 0),
      .wireDeviceGet 0x0207 (List.replicate 256 0), .wireDeviceSet 0x8207 (List.replicate 256 0)] : List Instr).all
      (fun i => !i.wf) = true := by simp [Instr.wf, dataFits, Config.maxData, -List.reduceReplicate]

theorem test_wf_refuses_get_with_set_bit : (Instr.wireDeviceGet 0x8207 []).wf = false := by decide
theorem test_wf_refuses_set_without_set_bit : (Instr.wireDeviceSet 0x0207 []).wf = false := by decide
theorem test_wf_refuses_control_get : (Instr.wireDeviceGet 0x7FF0 []).wf = false := by decide
theorem test_wf_refuses_control_set : (Instr.wireDeviceSet 0xFFF1 []).wf = false := by decide
theorem test_wf_admits_full_data : (Instr.send 0x8000 (List.replicate 255 0)).wf = true := by
  simp [Instr.wf, dataFits, Config.maxData, -List.reduceReplicate]

/-! ### The codec -/

theorem test_checksum_wraps : checksum 1 0xFF 0 0 0 [0x00] = 0x00 := by decide
theorem test_checksum_largest : checksum 0xFF 0xFF 0xFF 0xFF 0xFF (List.replicate 255 0xFF) = 0xFC := by
  decide +kernel

theorem test_encode_set :
    encodeFrame 0xC8 0x01 0x8207 [0x01, 0x01] = [0xBB, 0x02, 0xC8, 0x01, 0x82, 0x07, 0x01, 0x01, 0x56] := by decide

theorem test_encode_no_stuffing :
    encodeFrame 0xC8 0x01 0x0207 [0xBB] = [0xBB, 0x01, 0xC8, 0x01, 0x02, 0x07, 0xBB, 0x8E] := by decide

theorem test_decode_stx_before_length : decodeFrame [0xAA, 0x01] = .error .badStx := by decide
theorem test_decode_short : decodeFrame [0xBB, 0x01, 0xC8, 0x01, 0x01, 0x01, 0x01] = .error .truncated := by decide

theorem test_decode_long :
    decodeFrame [0xBB, 0x01, 0xC8, 0x01, 0x01, 0x01, 0x01, 0xCD, 0x00] = .error .overlength := by decide

theorem test_decode_checksum :
    decodeFrame [0xBB, 0x00, 0xC8, 0x01, 0x7F, 0xF1, 0x3A] = .error (.checksum 0x3A 0x39) := by decide

theorem test_decode_frame :
    decodeFrame [0xBB, 0x01, 0xC8, 0x01, 0x01, 0x01, 0x01, 0xCD] = .ok ⟨0xC8, 0x01, 0x0101, [0x01]⟩ := by decide

/-! ### One step of each instruction -/

theorem test_config_overwrites : after (·.dev) (execConfig 0xFF configured) = some (some 0xFF) := by decide
theorem test_config_in_session : shown (execConfig 0x01 registered) = some (some 0x51, [], .registered, []) := by decide

theorem test_reghost : shown (reghost params sweepMe
      (State.channel configured (bytes [0xBB, 0x01, 0xC8, 0x00, 0x7F, 0xF0, 0x01, 0x39]))) =
    some (some 0x00, [0xBB, 0x07, 0xC8, 0x00, 0x7F, 0xF0, 0x53, 0x77, 0x65, 0x65, 0x70, 0x4D, 0x65, 0xF4],
      .registered, []) := by decide

theorem test_reghost_timeout : shown (reghost params sweepMe { configured with txDraws := [.timeout 3] }) =
    some (some 0x42, [0xBB, 0x07, 0xC8], .disconnected, []) := by decide

theorem test_assign : shown (execAssign
      (State.channel registered (bytes [0xBB, 0x01, 0xC8, 0x01, 0xFF, 0xF1, 0x00, 0xBA]))) =
    some (some 0x00, [0xBB, 0x01, 0xC8, 0x01, 0xFF, 0xF1, 0x01, 0xBB], .master, []) := by decide

theorem test_assign_refused : answer (fun r => (r.status, r.devcode)) (execAssign
      (State.channel registered (bytes [0xBB, 0x01, 0xC8, 0x01, 0xFF, 0xF1, 0xFF, 0xB9]))) =
    some (0x30, 0x00FF) := by decide

theorem test_mstatus_warns : answer (fun r => (r.status, r.msf, r.warn)) (mstatus params
      (State.channel registered (bytes [0xBB, 0x01, 0xC8, 0x01, 0x7F, 0xF1, 0x0D, 0x47]))) =
    some (0x00, 0b1101, 0b0101) := by decide

theorem test_mstatus_ignores_high_bits : answer (fun r => (r.msf, r.warn)) (mstatus params
      (State.channel master (bytes [0xBB, 0x01, 0xC8, 0x01, 0x7F, 0xF1, 0xF1, 0x2B]))) =
    some (0b0001, 0b0010) := by decide

theorem test_release_timeout : shown (execRelease (State.channel master [.timeout])) =
    some (some 0x41, [0xBB, 0x01, 0xC8, 0x01, 0xFF, 0xF1, 0x00, 0xBA], .master, []) := by decide

theorem test_second_release : shown (execRelease registered) = some (some 0x51, [], .registered, []) := by decide

theorem test_send : (after (fun t => (t.out, t.txStream)) (execSend 0x0000 [] (State.channel master []))) =
    some (true, [0xBB, 0x00, 0xC8, 0x01, 0x00, 0x00, 0xC9]) := by decide

theorem test_send_control : shown (execSend 0xFFF1 [0x00] master) = some (some 0x80, [], .master, []) := by decide

theorem test_recv_any_addresses : answer (fun r => (r.rdev, r.rhost, r.rcmd, r.payload)) (execRecv
      { outstanding with rxDraws := bytes [0xBB, 0x01, 0x10, 0x22, 0x12, 0x34, 0x09, 0x82] }) =
    some (0x10, 0x22, 0x1234, [0x09]) := by decide

theorem test_recv_bad_stx : shown (execRecv { outstanding with rxDraws := bytes [0x00, 0xBB] }) =
    some (some 0x21, [], .registered, bytes [0xBB]) := by decide

theorem test_check_passes : answer (fun r => (r.status, r.payload))
    (check params { registered with pay := some ⟨0xC8, 0x01, 0x0207, [0x01]⟩ }) = some (0x00, [0x01]) := by decide

theorem test_check_finds : answer (fun r => (r.status, r.devcode, r.plen))
    (check params { registered with pay := some ⟨0xC8, 0x01, 0x0207, [0xEE, 0x05]⟩ }) =
    some (0x30, 0x0005, 0) := by decide

theorem test_disconnect_warns : answer (fun r => (r.status, r.warn, r.fsm, r.hostV))
    (execDisconnect { master with txDraws := [.timeout 2] }) = some (0x00, 0b1000, 0, false) := by decide

theorem test_disconnect_busy : shown (execDisconnect outstanding) = some (some 0x60, [], .registered, []) := by decide

theorem test_wire_assign_is_assign : shown (exec .wireMasterSetAssign
      (State.channel registered (bytes [0xBB, 0x01, 0xC8, 0x01, 0xFF, 0xF1, 0x00, 0xBA]))) =
    some (some 0x00, [0xBB, 0x01, 0xC8, 0x01, 0xFF, 0xF1, 0x01, 0xBB], .master, []) := by decide

theorem test_wire_release_is_release : shown (exec .wireMasterSetRelease
      (State.channel master (bytes [0xBB, 0x01, 0xC8, 0x01, 0xFF, 0xF1, 0x00, 0xBA]))) =
    some (some 0x00, [0xBB, 0x01, 0xC8, 0x01, 0xFF, 0xF1, 0x00, 0xBA], .registered, []) := by decide

theorem test_wire_get_sends : shown (exec (.wireDeviceGet 0x0207 [0x01]) (State.channel registered [])) =
    some (some 0x00, [0xBB, 0x01, 0xC8, 0x01, 0x02, 0x07, 0x01, 0xD4], .registered, []) := by decide

theorem test_wire_set_sends : shown (exec (.wireDeviceSet 0x8207 [0x01, 0xBB]) (State.channel registered [])) =
    some (some 0x00, [0xBB, 0x02, 0xC8, 0x01, 0x82, 0x07, 0x01, 0xBB, 0x10], .registered, []) := by decide

theorem test_wire_regHost_state : shown (exec (.wireRegHost []) registered) =
    some (some 0x51, [], .registered, []) := by decide

theorem test_wire_masterGet_state : shown (exec .wireMasterGet configured) =
    some (some 0x51, [], .disconnected, []) := by decide

/-! ### The step -/

theorem test_step_illegal : shown (step { State.reset with inputs := [.item (.request 0x00000000 [])] }) =
    some (some 0x70, [], .disconnected, []) := by decide

theorem test_step_runs_word : after (·.dev) (step (State.reset.withFetchWord 32 0x100000C8)) = some (some 0xC8) := by
  decide

theorem test_step_reset : after (·.registers) (step { master with inputs := [.reset] }) =
    some State.reset.registers := by decide

/-! ### The assembler -/

theorem test_asm_send : parseAsm "SEND 0x8207, [0x01, 1] ; set".toList = some (.send 0x8207 [1, 1]) := by decide
theorem test_asm_reghost : parseAsm "REGHOST \"SweepMe\"".toList = some (.reghost (sweepMe.map BitVec.toNat)) := by decide
theorem test_asm_refuses : (AsmLine.config 256).assemble = none := by decide

/-! ### Witnesses: the hypotheses of each statement, met together -/

theorem witness_ChecksumIsTheModularSum : (List.replicate 255 (0xFF : Byte)).length ≤ 255 := List.length_replicate.le

theorem witness_FrameFieldsStandAtTheirOffsets :
    (List.replicate 255 (0xAA : Byte)).length ≤ 255 ∧ 254 < (List.replicate 255 (0xAA : Byte)).length := by
  simp [-List.reduceReplicate]

theorem witness_DecodeOfEncodeGivesTheFields : (List.replicate 255 (0xAA : Byte)).length ≤ 255 := List.length_replicate.le

/-- One changed byte of frame S1 for each clause: STX, a longer and a shorter LEN, the first summed byte, and CHK. -/
theorem witness_OneChangedByteIsDetected :
    ([0x01] : Bytes).length ≤ 255 ∧
    ([(0, 0xBA), (1, 0x02), (1, 0x00), (2, 0xC9), (7, 0xCC)] : List (Nat × Byte)).all (fun c =>
      c.1 < (encodeFrame 0xC8 0x01 0x0101 [0x01]).length && (encodeFrame 0xC8 0x01 0x0101 [0x01])[c.1]? != some c.2) =
      true := by decide

/-- V-CK9 and V-CK7: swapped command bytes, and swapped data bytes. -/
theorem witness_SumPreservingChangesAreAccepted :
    ([0x01] : Bytes).length = ([0x01] : Bytes).length ∧ ([0x01] : Bytes).length ≤ 255 ∧
    ((0xC8 : Byte).toNat + (0x01 : Byte).toNat + ((0x0207 : Command).extractLsb' 8 8).toNat +
      ((0x0207 : Command).extractLsb' 0 8).toNat + ((([0x01] : Bytes)).map BitVec.toNat).sum) % 256 =
    ((0xC8 : Byte).toNat + (0x01 : Byte).toNat + ((0x0702 : Command).extractLsb' 8 8).toNat +
      ((0x0702 : Command).extractLsb' 0 8).toNat + ((([0x01] : Bytes)).map BitVec.toNat).sum) % 256 ∧
    List.Perm ([2, 0xC8, 0x01, 0x02, 0x07, 0x01, 0x02] : Bytes) [2, 0xC8, 0x01, 0x02, 0x07, 0x02, 0x01] := by decide

theorem witness_ReceiverAgreesWithDecode :
    (∃ s', rxFrame { outstanding with rxDraws := bytes [0xBB, 0x00, 0xC8, 0x01, 0x7F, 0xF1, 0x39] } =
      .ok ⟨0xC8, 0x01, 0x7FF1, []⟩ s') ∧
    ∃ (s' : State) (bs : Bytes), rxFrame { outstanding with rxDraws := bytes [0x00] } = .raised .badStx s' ∧
      s'.trace = outstanding.trace ++ bs.map PortEvent.rx := ⟨⟨_, rfl⟩, _, [0x00], rfl, rfl⟩

/-- The rule's own example, and 254 further data bytes. -/
theorem witness_CorruptedLengthCanBeAccepted :
    (List.replicate 254 (0x00 : Byte)).length ≤ 254 ∧
    ({ outstanding with rxDraws := bytes ((encodeFrame 0xC8 0x01 0x0101 (0xCB :: List.replicate 254 0x00)).set 1 0) } :
      State).rxDraws =
      ((encodeFrame 0xC8 0x01 0x0101 (0xCB :: List.replicate 254 0x00)).set 1 0).map .byte ++ [] ∧
    ({ outstanding with rxDraws := bytes [0xBB, 0x00, 0xC8, 0x01, 0x01, 0x01, 0xCB, 0x97] } : State).rxDraws =
      ([0xBB, 0x00, 0xC8, 0x01, 0x01, 0x01, 0xCB, 0x97] : Bytes).map .byte ++ [] :=
  ⟨List.length_replicate.le, by rw [List.append_nil]; rfl, by decide⟩

/-- A timeout at once; a wrong first byte; a timeout after one byte and before the last; a whole frame. -/
theorem witness_ReceiveTakesOneFrame :
    ({ outstanding with rxDraws := [.timeout] } : State).rxDraws = [.timeout] ∧
    ((0x00 : Byte) ≠ 0xBB ∧ ({ outstanding with rxDraws := bytes [0x00] } : State).rxDraws = [.byte 0x00]) ∧
    (([0x01] : Bytes).length = (0x01 : Byte).toNat ∧
      ([1, 7] : List Nat).all (fun j =>
        decide (0 < j ∧ j < ([0xBB, 1, 0xC8, 1, 2, 7] ++ [0x01] ++ [0xD4] : Bytes).length) &&
        decide (({ outstanding with
          rxDraws := bytes (([0xBB, 1, 0xC8, 1, 2, 7, 0x01, 0xD4] : Bytes).take j) ++ [RxDraw.timeout] } : State).rxDraws =
          (([0xBB, 1, 0xC8, 1, 2, 7] ++ [0x01] ++ [0xD4] : Bytes).take j).map .byte ++ .timeout :: [])) = true ∧
      ({ outstanding with rxDraws := bytes [0xBB, 1, 0xC8, 1, 2, 7, 0x01, 0xD4] } : State).rxDraws =
        ([0xBB, 1, 0xC8, 1, 2, 7] ++ [0x01] ++ [0xD4] : Bytes).map .byte ++ []) := by decide

theorem witness_TransmitOffersOneFrame :
    (State.channel registered []).txDraws = .accepted :: [] ∧
    ([0, 7] : List Nat).all (fun k => decide (k < (encodeFrame 0xC8 0x01 0x0101 [0x01]).length) &&
      decide (({ registered with txDraws := [.timeout k] } : State).txDraws = [.timeout k])) = true := by decide

theorem witness_DecodeOfEncodeGivesTheInstruction : (Instr.send 0xFFFF (List.replicate 255 0xFF)).wf = true := by
  simp [Instr.wf, dataFits, Config.maxData, -List.reduceReplicate]

theorem witness_EncodingsAreUnique : decode (.request 0x60820702 [0x01, 0x01]) = .ok (.send 0x8207 [0x01, 0x01]) := by
  decide

theorem witness_RequestsFollowTheOpcodeTable :
    laneExact 0x100000FF [] = true ∧ decode (.request 0x100000FF []) = .ok (.config 0xFF) ∧
    ⟨"CONFIG", 0x10000000, 0xFFFFFF00⟩ ∈ requestTable ∧ (0x100000FF : RequestWord) &&& 0xFFFFFF00 = 0x10000000 := by
  decide

/-- One word for each reason: both ends of the reserved `OP` range, `RSV`, `CMD` and `LEN`. -/
theorem witness_IllegalRequestsHaveNoOtherEffect :
    ([0x00000000, 0xA0000000, 0xF0000000, 0x11000000, 0x10000100, 0x90000001] : List RequestWord).all (fun w =>
      decide ({ State.reset with inputs := [.item (.request w [])] }.inputs = .item (.request w []) :: [] ∧
        State.reset.fsm ≠ .registering ∧
        ((w.extractLsb' 28 4).toNat = 0 ∨ 0xA ≤ (w.extractLsb' 28 4).toNat ∨ w.extractLsb' 24 4 ≠ 0 ∨
          ((w.extractLsb' 28 4).toNat ≠ 6 ∧ w.extractLsb' 8 16 ≠ 0) ∨
          (((w.extractLsb' 28 4).toNat = 3 ∨ (w.extractLsb' 28 4).toNat = 4 ∨ (w.extractLsb' 28 4).toNat = 5 ∨
            (w.extractLsb' 28 4).toNat = 7 ∨ (w.extractLsb' 28 4).toNat = 8 ∨ (w.extractLsb' 28 4).toNat = 9) ∧
            w.extractLsb' 0 8 ≠ 0)))) = true := by decide

/-- Idle, a decoded instruction, and a lane that is not the word's. -/
theorem witness_StepRunsTheDecodedInstruction :
    State.reset.inputs = [] ∧
    ({ State.reset with inputs := [.item (.request 0x30000000 [])] } : State).inputs = [.item (.request 0x30000000 [])] ∧
    decode (.request 0x30000000 []) = .ok .assign ∧ decode (.request 0x20000001 []) = .error .laneMismatch := by decide

theorem witness_ResetRestoresTheRegisters :
    ({ master with inputs := [.reset] } : State).inputs = .reset :: [] := by decide

/-- A reset outside the port calls; at the first and after the last byte of the transmission; before the first byte of
the reply and after its last. -/
theorem witness_ResetAbortsTheOperation :
    ({ master with inputs := [.aborted (.request 0x50000000 [])] } : State).inputs =
      .aborted (.request 0x50000000 []) :: [] ∧
    registered.fsm = .registered ∧ registered.out = false ∧ registered.dev = some 0xC8 ∧ registered.host = some 0x01 ∧
    ([0, 8] : List Nat).all (fun k => decide (k ≤ (encodeFrame 0xC8 0x01 0xFFF1 [0x01]).length) &&
      decide (({ registered with txDraws := [.reset k] } : State).txDraws = [.reset k])) = true ∧
    (State.channel registered [.reset]).txDraws = [.accepted] ∧ (State.channel registered [.reset]).rxDraws = [.reset] ∧
    (State.channel registered (bytes [0xBB, 1, 0xC8, 1, 0xFF, 0xF1, 0] ++ [.byteReset 0xBA])).rxDraws =
      ((encodeFrame 0xC8 0x01 0xFFF1 [0x00]).dropLast).map .byte ++
        (((encodeFrame 0xC8 0x01 0xFFF1 [0x00]).drop 7).map .byteReset ++ []) := by decide

/-- The clauses of `ResetAbortsTheOperation` over every operation with port calls: a reset before and after all of a
transmission, before a reply, inside it, and right after its last byte. -/
theorem witness_ResetAbortsTheOperation_ports :
    outstanding.fsm ≠ .registering ∧ outstanding.out = true ∧
    (∃ p, rxFrame { outstanding with out := false, pay := none, rxDraws := bytes [0xBB, 1, 0xC8] ++ [.reset] } =
      .aborted p) ∧
    (sweepMe.length ≤ 255 ∧ configured.out = false ∧ configured.fsm = .disconnected ∧ configured.dev = some 0xC8) ∧
    (∃ p, transact 0xC8 Config.params.regHostField 0x7FF0 sweepMe { State.channel configured [.reset] with
      fsm := .registering } = .aborted p) ∧
    (registered.out = false ∧ registered.fsm = .registered ∧ registered.dev = some 0xC8 ∧ registered.host = some 0x01) ∧
    ¬((0x0207 : Command) = 0x7FF0 ∨ (0x0207 : Command) = 0xFFF1 ∨ (0x0207 : Command) = 0x7FF1) ∧
    (∃ p, txSend 0xC8 0x01 0x0207 [0x01] { registered with txDraws := [.reset 0] } = .aborted p) ∧
    (∃ p, transact 0xC8 0x01 0xFFF1 [0x01] { registered with txDraws := [.reset 8] } = .aborted p) ∧
    (∃ p, transact 0xC8 0x01 0x7FF1 [] (State.channel registered (bytes [0xBB, 1, 0xC8, 1] ++ [.byteReset 0x7F])) =
      .aborted p) ∧
    (master.out = false ∧ master.fsm = .master ∧ master.dev = some 0xC8 ∧ master.host = some 0x01) ∧
    ∃ p, transact 0xC8 0x01 0xFFF1 [0x00] (State.channel master
      (bytes [0xBB, 1, 0xC8, 1, 0xFF, 0xF1, 0] ++ [.byteReset 0xBA])) = .aborted p :=
  ⟨by decide, by decide, ⟨_, rfl⟩, by decide, ⟨_, rfl⟩, by decide, by decide, ⟨_, rfl⟩, ⟨_, rfl⟩, ⟨_, rfl⟩, by decide,
    _, rfl⟩

/-- The first and last points of a transmission, of a receive, and either half of a transaction. -/
theorem witness_ResetFallsAnywhereInAPortCall :
    ([0, 8] : List Nat).all (fun k => decide (k ≤ (encodeFrame 0xC8 0x01 0xFFF1 [0x01]).length) &&
      decide (({ registered with txDraws := [.reset k] } : State).txDraws = .reset k :: [])) = true ∧
    (([0x01] : Bytes).length = (0x01 : Byte).toNat ∧
      ([0, 7] : List Nat).all (fun j =>
        decide (j < ([0xBB, 1, 0xC8, 1, 2, 7] ++ [0x01] ++ [0xD4] : Bytes).length) &&
        ([.reset, .byteReset 0x00] : List RxDraw).all (fun x =>
          decide (({ outstanding with
            rxDraws := bytes (([0xBB, 1, 0xC8, 1, 2, 7, 0x01, 0xD4] : Bytes).take j) ++ [x] } : State).rxDraws =
            (([0xBB, 1, 0xC8, 1, 2, 7] ++ [0x01] ++ [0xD4] : Bytes).take j).map .byte ++ x :: []))) = true) ∧
    (∃ p, txSend 0xC8 0x01 0xFFF1 [0x01] { registered with txDraws := [.reset 3] } = .aborted p) ∧
    ∃ s1 p, txSend 0xC8 0x01 0xFFF1 [0x01] (State.channel registered [.byteReset 0xBB]) = .ok () s1 ∧
      rxFrame s1 = .aborted p := ⟨by decide, by decide, ⟨_, rfl⟩, _, _, rfl, rfl⟩

/-- DISCONNECT's `catch` does not hold a reset: no response, and every register at its reset value. -/
theorem test_disconnect_reset : after (fun t => (t.responses, t.registers))
    (execDisconnect (State.channel master (bytes [0xBB, 1] ++ [.reset]))) = some ([], State.reset.registers) := by decide

/-- Each clause of the operations' rules: outstanding, wrong state, and admitted. -/
theorem witness_ConfigFollowsItsRule :
    (outstanding.fsm ≠ .registering ∧ outstanding.out = true) ∧
    (registered.fsm ≠ .registering ∧ registered.out = false ∧ registered.fsm ≠ .disconnected) ∧
    (State.reset.fsm ≠ .registering ∧ State.reset.out = false ∧ State.reset.fsm = .disconnected) := by decide

theorem witness_SendFollowsItsRule :
    operation (.send 0x0207 [0x01]) = .send 0x0207 [0x01] ∧ operation (.wireDeviceSet 0x8207 []) = .send 0x8207 [] ∧
    ([0x01] : Bytes).length ≤ 255 ∧ (outstanding.fsm ≠ .registering ∧ outstanding.out = true) ∧
    (configured.out = false ∧ configured.fsm = .disconnected) ∧
    (registered.out = false ∧ registered.fsm = .registered ∧ registered.dev = some 0xC8 ∧ registered.host = some 0x01) ∧
    (master.out = false ∧ master.fsm = .master) ∧
    ¬((0x0207 : Command) = 0x7FF0 ∨ (0x0207 : Command) = 0xFFF1 ∨ (0x0207 : Command) = 0x7FF1) ∧
    (State.channel registered []).txDraws = .accepted :: [] ∧
    (7 < (encodeFrame 0xC8 0x01 0x0207 [0x01]).length ∧
      ({ registered with txDraws := [.timeout 7] } : State).txDraws = .timeout 7 :: []) ∧
    (∃ s', txSend 0xC8 0x01 0x0207 [0x01] (State.channel registered []) = .ok () s') ∧
    ∃ s', txSend 0xC8 0x01 0x0207 [0x01] { registered with txDraws := [.timeout 0] } = .raised .timeoutTx s' :=
  ⟨rfl, rfl, by decide, by decide, by decide, by decide, by decide, by decide, by decide, by decide, ⟨_, rfl⟩, _, rfl⟩

theorem witness_RecvFollowsItsRule :
    (registered.fsm ≠ .registering ∧ registered.out = false) ∧
    (outstanding.fsm ≠ .registering ∧ outstanding.out = true) ∧
    (([0x01] : Bytes).length ≤ 255 ∧ ({ outstanding with rxDraws := bytes [0xBB, 1, 0xC8, 1, 2, 7, 1, 0xD4] } :
      State).rxDraws = (encodeFrame 0xC8 0x01 0x0207 [0x01]).map .byte ++ []) ∧
    (∃ s', rxFrame { registered with out := false, pay := none, rxDraws := bytes [0xBB, 1, 0xC8, 1, 2, 7, 1, 0xD4] } =
      .ok ⟨0xC8, 0x01, 0x0207, [0x01]⟩ s') ∧
    ∃ s', rxFrame { registered with out := false, pay := none, rxDraws := [.timeout] } = .raised .timeoutRx s' :=
  ⟨by decide, by decide, by decide, ⟨_, rfl⟩, _, rfl⟩

theorem witness_CheckFollowsItsRule :
    (registered.fsm ≠ .registering ∧ registered.pay = none) ∧
    ({ registered with pay := some ⟨0xC8, 0x01, 0x0207, []⟩ } : State).pay = some ⟨0xC8, 0x01, 0x0207, []⟩ := by decide

theorem witness_ReghostFollowsItsRule :
    operation (.reghost sweepMe) = .reghost sweepMe ∧ operation (.wireRegHost []) = .reghost [] ∧
    sweepMe.length ≤ 255 ∧ (outstanding.fsm ≠ .registering ∧ outstanding.out = true) ∧
    (registered.out = false ∧ registered.fsm ≠ .disconnected) ∧
    (State.reset.out = false ∧ State.reset.fsm = .disconnected ∧ State.reset.dev = none) ∧
    (configured.out = false ∧ configured.fsm = .disconnected ∧ configured.dev = some 0xC8) ∧
    ((State.channel configured (bytes [0xBB, 1, 0xC8, 0, 0x7F, 0xF0, 1, 0x39])).txDraws = .accepted :: [] ∧
      (State.channel configured (bytes [0xBB, 1, 0xC8, 0, 0x7F, 0xF0, 1, 0x39])).rxDraws =
        (encodeFrame 0xC8 0x00 0x7FF0 [0x01]).map .byte ++ []) ∧
    (∃ s', transact 0xC8 Config.params.regHostField 0x7FF0 sweepMe { State.channel configured
        (bytes [0xBB, 1, 0xC8, 0, 0x7F, 0xF0, 1, 0x39]) with fsm := .registering } = .ok [0x01] s') ∧
    (∃ s', transact 0xC8 Config.params.regHostField 0x7FF0 sweepMe { State.channel configured
        (bytes [0xBB, 2, 0xC8, 0, 0x7F, 0xF0, 1, 2, 0x3C]) with fsm := .registering } = .ok [0x01, 0x02] s') ∧
    ∃ s', transact 0xC8 Config.params.regHostField 0x7FF0 sweepMe { State.channel configured [.timeout] with
      fsm := .registering } = .raised .timeoutRx s' :=
  ⟨rfl, rfl, by decide, by decide, by decide, by decide, by decide, by decide, ⟨_, rfl⟩, ⟨_, rfl⟩, _, rfl⟩

theorem witness_AssignFollowsItsRule :
    operation .assign = .assign ∧ operation .wireMasterSetAssign = .assign ∧
    (outstanding.fsm ≠ .registering ∧ outstanding.out = true) ∧ (master.out = false ∧ master.fsm ≠ .registered) ∧
    (registered.out = false ∧ registered.fsm = .registered ∧ registered.dev = some 0xC8 ∧ registered.host = some 0x01) ∧
    ((State.channel registered (bytes [0xBB, 1, 0xC8, 1, 0xFF, 0xF1, 0, 0xBA])).txDraws = .accepted :: [] ∧
      (State.channel registered (bytes [0xBB, 1, 0xC8, 1, 0xFF, 0xF1, 0, 0xBA])).rxDraws =
        (encodeFrame 0xC8 0x01 0xFFF1 [0x00]).map .byte ++ []) ∧
    (∃ s', transact 0xC8 0x01 0xFFF1 [0x01] (State.channel registered
      (bytes [0xBB, 1, 0xC8, 1, 0xFF, 0xF1, 0, 0xBA])) = .ok [0x00] s') ∧
    (∃ s', transact 0xC8 0x01 0xFFF1 [0x01] (State.channel registered
      (bytes [0xBB, 1, 0xC8, 1, 0xFF, 0xF1, 0xFF, 0xB9])) = .ok [0xFF] s') ∧
    (∃ s', transact 0xC8 0x01 0xFFF1 [0x01] (State.channel registered
      (bytes [0xBB, 0, 0xC8, 1, 0xFF, 0xF1, 0xB9])) = .ok [] s') ∧
    ∃ s', transact 0xC8 0x01 0xFFF1 [0x01] (State.channel registered [.timeout]) = .raised .timeoutRx s' :=
  ⟨rfl, rfl, by decide, by decide, by decide, by decide, ⟨_, rfl⟩, ⟨_, rfl⟩, ⟨_, rfl⟩, _, rfl⟩

theorem witness_MstatusFollowsItsRule :
    operation .mstatus = .mstatus ∧ operation .wireMasterGet = .mstatus ∧
    (outstanding.fsm ≠ .registering ∧ outstanding.out = true) ∧
    (configured.out = false ∧ configured.fsm = .disconnected) ∧
    (registered.out = false ∧ registered.fsm = .registered ∧ registered.dev = some 0xC8 ∧ registered.host = some 0x01) ∧
    (master.out = false ∧ master.fsm = .master ∧ master.dev = some 0xC8 ∧ master.host = some 0x01) ∧
    ((State.channel master (bytes [0xBB, 1, 0xC8, 1, 0x7F, 0xF1, 5, 0x3F])).txDraws = .accepted :: [] ∧
      (State.channel master (bytes [0xBB, 1, 0xC8, 1, 0x7F, 0xF1, 5, 0x3F])).rxDraws =
        (encodeFrame 0xC8 0x01 0x7FF1 [0x05]).map .byte ++ []) ∧
    (∃ s', transact 0xC8 0x01 0x7FF1 [] (State.channel master
      (bytes [0xBB, 1, 0xC8, 1, 0x7F, 0xF1, 5, 0x3F])) = .ok [0x05] s') ∧
    (∃ s', transact 0xC8 0x01 0x7FF1 [] (State.channel master
      (bytes [0xBB, 2, 0xC8, 1, 0x7F, 0xF1, 1, 0, 0x3C])) = .ok [0x01, 0x00] s') ∧
    ∃ s', transact 0xC8 0x01 0x7FF1 [] (State.channel master [.timeout]) = .raised .timeoutRx s' :=
  ⟨rfl, rfl, by decide, by decide, by decide, by decide, by decide, ⟨_, rfl⟩, ⟨_, rfl⟩, _, rfl⟩

/-- The hypotheses of the RELEASE and DISCONNECT rules. -/
theorem witness_ReleaseFollowsItsRule :
    operation .release = .release ∧ operation .wireMasterSetRelease = .release ∧
    (outstanding.fsm ≠ .registering ∧ outstanding.out = true) ∧ (registered.out = false ∧ registered.fsm ≠ .master) ∧
    (master.out = false ∧ master.fsm = .master ∧ master.dev = some 0xC8 ∧ master.host = some 0x01) ∧
    ((State.channel master (bytes [0xBB, 1, 0xC8, 1, 0xFF, 0xF1, 0, 0xBA])).txDraws = .accepted :: [] ∧
      (State.channel master (bytes [0xBB, 1, 0xC8, 1, 0xFF, 0xF1, 0, 0xBA])).rxDraws =
        (encodeFrame 0xC8 0x01 0xFFF1 [0x00]).map .byte ++ []) ∧
    (∃ s', transact 0xC8 0x01 0xFFF1 [0x00] (State.channel master
      (bytes [0xBB, 1, 0xC8, 1, 0xFF, 0xF1, 0, 0xBA])) = .ok [0x00] s') ∧
    (∃ s', transact 0xC8 0x01 0xFFF1 [0x00] (State.channel master
      (bytes [0xBB, 1, 0xC8, 1, 0xFF, 0xF1, 5, 0xBF])) = .ok [0x05] s') ∧
    (∃ s', transact 0xC8 0x01 0xFFF1 [0x00] (State.channel master
      (bytes [0xBB, 0, 0xC8, 1, 0xFF, 0xF1, 0xB9])) = .ok [] s') ∧
    ∃ s', transact 0xC8 0x01 0xFFF1 [0x00] (State.channel master [.timeout]) = .raised .timeoutRx s' :=
  ⟨rfl, rfl, by decide, by decide, by decide, by decide, ⟨_, rfl⟩, ⟨_, rfl⟩, ⟨_, rfl⟩, _, rfl⟩

theorem witness_DisconnectFollowsItsRule :
    (outstanding.fsm ≠ .registering ∧ outstanding.out = true) ∧
    (registered.fsm ≠ .registering ∧ registered.out = false ∧ registered.fsm ≠ .master) ∧
    (master.fsm ≠ .registering ∧ master.out = false ∧ master.fsm = .master ∧ master.dev = some 0xC8 ∧
      master.host = some 0x01) ∧
    ((State.channel master (bytes [0xBB, 1, 0xC8, 1, 0xFF, 0xF1, 0, 0xBA])).txDraws = .accepted :: [] ∧
      (State.channel master (bytes [0xBB, 1, 0xC8, 1, 0xFF, 0xF1, 0, 0xBA])).rxDraws =
        (encodeFrame 0xC8 0x01 0xFFF1 [0x00]).map .byte ++ []) ∧
    (∃ s', transact 0xC8 0x01 0xFFF1 [0x00] (State.channel master
      (bytes [0xBB, 1, 0xC8, 1, 0xFF, 0xF1, 1, 0xBB])) = .ok [0x01] s') ∧
    ∃ s', transact 0xC8 0x01 0xFFF1 [0x00] (State.channel master [.timeout]) = .raised .timeoutRx s' :=
  ⟨by decide, by decide, by decide, by decide, ⟨_, rfl⟩, _, rfl⟩

/-- States in which each wire command is admitted and its channel answers; the refusing clauses are those of the
operations' own witnesses above. -/
theorem witness_WireCommandsFollowTheirSendersRules :
    (sweepMe.length ≤ 255 ∧ (configured.out = false ∧ configured.fsm = .disconnected ∧ configured.dev = some 0xC8) ∧
      (∃ s', transact 0xC8 Config.params.regHostField 0x7FF0 sweepMe { State.channel configured
        (bytes [0xBB, 1, 0xC8, 0, 0x7F, 0xF0, 1, 0x39]) with fsm := .registering } = .ok [0x01] s')) ∧
    (registered.out = false ∧ registered.fsm = .registered ∧ registered.dev = some 0xC8 ∧ registered.host = some 0x01) ∧
    (∃ s', transact 0xC8 0x01 0xFFF1 [0x01] (State.channel registered
      (bytes [0xBB, 1, 0xC8, 1, 0xFF, 0xF1, 0, 0xBA])) = .ok [0x00] s') ∧
    (∃ s', transact 0xC8 0x01 0x7FF1 [] (State.channel registered
      (bytes [0xBB, 1, 0xC8, 1, 0x7F, 0xF1, 5, 0x3F])) = .ok [0x05] s') ∧
    (master.out = false ∧ master.fsm = .master) ∧
    (∃ s', transact 0xC8 0x01 0xFFF1 [0x00] (State.channel master
      (bytes [0xBB, 1, 0xC8, 1, 0xFF, 0xF1, 0, 0xBA])) = .ok [0x00] s') ∧
    ¬((0x8207 : Command) = 0x7FF0 ∨ (0x8207 : Command) = 0xFFF1 ∨ (0x8207 : Command) = 0x7FF1) ∧
    ∃ s', txSend 0xC8 0x01 0x8207 [0x01, 0x01] (State.channel registered []) = .ok () s' :=
  ⟨⟨by decide, by decide, _, rfl⟩, by decide, ⟨_, rfl⟩, ⟨_, rfl⟩, by decide, ⟨_, rfl⟩, by decide, _, rfl⟩

/-- A CONFIG that answers, for the statements about any operation's response. -/
theorem witness_EveryOperationAnswersOnce : ∃ t, exec (.config 0xC8) State.reset = .next t := ⟨_, rfl⟩

theorem witness_OperationsReportOnlyTheirStatus : ∃ t r, exec .recv State.reset = .next t ∧ Answered State.reset t r :=
  ⟨_, _, rfl, rfl⟩

theorem witness_WarningsNeverChangeTheStatus :
    ∃ t r, exec .disconnect { master with txDraws := [.timeout 0] } = .next t ∧
      Answered { master with txDraws := [.timeout 0] } t r ∧ r.warn ≠ 0 := ⟨_, _, rfl, rfl, by decide⟩

/-- A refused and an admitted operation. -/
theorem witness_AdmissionFollowsTheTable :
    Instr.assign.wf = true ∧ State.reset.fsm ≠ .registering ∧ admissionError .assign State.reset = some .fsmState ∧
    (Instr.config 0xC8).wf = true ∧ admissionError (.config 0xC8) State.reset = none ∧
    ∃ t r, exec (.config 0xC8) State.reset = .next t ∧ Answered State.reset t r :=
  ⟨rfl, by decide, rfl, rfl, rfl, _, _, rfl, rfl⟩

/-- An admission error, and an error of SEND, RECV, ASSIGN after it. -/
theorem witness_ErrorsChangeOnlyWhatTheTableSays :
    (∃ t r, exec .check State.reset = .next t ∧ Answered State.reset t r ∧ r.status ≠ 0 ∧ AdmissionClass r.classCode) ∧
    (∃ t r, exec (.send 0x0207 []) { registered with txDraws := [.timeout 0] } = .next t ∧
      Answered registered t r ∧ r.status ≠ 0) ∧
    (∃ t r, exec .recv { outstanding with rxDraws := [.timeout] } = .next t ∧ Answered outstanding t r ∧ r.status ≠ 0 ∧
      ¬AdmissionClass r.classCode) ∧
    ∃ t r, exec .assign (State.channel registered [.timeout]) = .next t ∧ Answered registered t r ∧ r.status ≠ 0 :=
  ⟨⟨_, _, rfl, rfl, by decide, .inl (by decide)⟩, ⟨_, _, rfl, rfl, by decide⟩,
    ⟨_, _, rfl, rfl, by decide, by rintro (h | h | h | h) <;> revert h <;> decide⟩, _, _, rfl, rfl, by decide⟩

theorem witness_FacadeOperationsKeepTheRest :
    (∃ t, exec (.config 0xC8) State.reset = .next t) ∧
    (∃ t, exec (.wireDeviceGet 0x0207 []) (State.channel registered []) = .next t) ∧
    (∃ t, exec .recv { outstanding with rxDraws := [.timeout] } = .next t) ∧ ∃ t, exec .check registered = .next t :=
  ⟨⟨_, rfl⟩, ⟨_, rfl⟩, ⟨_, rfl⟩, _, rfl⟩

theorem witness_ArbitrationOperationsKeepTheRest :
    (∃ t, exec (.wireRegHost []) (State.channel configured [.timeout]) = .next t) ∧
    (∃ t, exec .wireMasterSetAssign (State.channel registered [.timeout]) = .next t) ∧
    (∃ t, exec .wireMasterGet (State.channel master [.timeout]) = .next t) ∧
    (∃ t, exec .release (State.channel master [.timeout]) = .next t) ∧ ∃ t, exec .disconnect registered = .next t :=
  ⟨⟨_, rfl⟩, ⟨_, rfl⟩, ⟨_, rfl⟩, ⟨_, rfl⟩, _, rfl⟩

theorem witness_OneFrameOutThenBoundedBytesIn : ∃ t, exec .assign (State.channel registered [.timeout]) = .next t :=
  ⟨_, rfl⟩

theorem witness_EveryFrameFollowsTheWireCommandMap :
    ∃ t evs f, exec .assign (State.channel registered [.timeout]) = .next t ∧
      t.trace = registered.trace ++ evs ∧ PortEvent.tx f 8 ∈ evs :=
  ⟨_, [.tx (encodeFrame 0xC8 0x01 0xFFF1 [0x01]) 8, .rxTimeout], encodeFrame 0xC8 0x01 0xFFF1 [0x01], rfl, rfl, by simp⟩

/-- A move by an operation, and one by a reset. -/
theorem witness_FsmMovesOnlyByTheTable :
    (∃ t, exec .disconnect registered = .next t ∧ t.fsm ≠ registered.fsm) ∧
    ∃ t, exec .assign { registered with txDraws := [.reset 0] } = .next t ∧ t.fsm ≠ registered.fsm :=
  ⟨⟨_, rfl, by decide⟩, _, rfl, by decide⟩

/-- A step into MASTER and one out of it. -/
theorem witness_OnlyAssignCreatesMasterRights :
    (∃ t, step { State.channel registered (bytes [0xBB, 1, 0xC8, 1, 0xFF, 0xF1, 0, 0xBA]) with
        inputs := [.item (.request 0x30000000 [])] } = .next t ∧ registered.fsm ≠ .master ∧ t.fsm = .master) ∧
    ∃ t, step { State.channel master [.timeout] with inputs := [.item (.request 0x90000000 [])] } = .next t ∧
      master.fsm = .master ∧ t.fsm ≠ .master := ⟨⟨_, rfl, by decide, by decide⟩, _, rfl, by decide, by decide⟩

/-- Every kind of stop. -/
theorem witness_InstructionsStopOnlyOutsideTheSpec :
    Instr.assign.wf = true ∧
    exec .assign { registered with fsm := .registering } = .fault .registeringAtRest ∧
    exec .assign { registered with dev := none } = .fault .absentDev ∧
    exec .assign { registered with host := none } = .fault .absentHost ∧
    exec .assign { registered with txDraws := [.hang] } = .fault .channelHangs := ⟨rfl, rfl, rfl, rfl, rfl⟩

theorem registered_session : SessionInv registered :=
  ⟨by decide, by decide, by decide, by decide⟩

theorem witness_EveryStepKeepsTheSessionInvariant : SessionInv registered ∧
    ∃ t, step { registered with inputs := [.item (.request 0x90000000 [])] } = .next t :=
  ⟨registered_session, _, rfl⟩

theorem witness_EveryStepKeepsTheReceivedInvariant : SessionInv registered ∧ ReceivedInv registered ∧
    ∃ t, step registered = .next t :=
  ⟨registered_session, ⟨by decide, by decide, (fun f h => by cases h), by decide⟩, _, rfl⟩

theorem witness_RunsNeverStop :
    SessionInv { registered with inputs := [.item (.request 0x30000000 [])] } ∧
    PortContract { registered with inputs := [.item (.request 0x30000000 [])] } ∧
    ChannelReturns { registered with inputs := [.item (.request 0x30000000 [])] } :=
  ⟨⟨by decide, by decide, by decide, by decide⟩,
    fun it h => by
      simp only [List.mem_singleton, Input.item.injEq] at h
      subst h
      decide,
    ⟨by decide, by decide⟩⟩

end Sys2Proof.Tests
end

/-! PROOFS. What a step does to the registers (R20), and the obligations of 10_state.md: R29's invariant and its
companion, the frames of the operations, where an instruction stops, and what a step runs. -/

namespace Sys2Proof.Machine

/-! ### What an operation does to the registers and the ports -/

/-- The client's list is no operation's to change. -/
theorem Went.inputs {i : Instr} {s t : State} (h : Went i s t) : t.inputs = s.inputs := by
  obtain ⟨e, rfl, -⟩ | ⟨evs, -, ⟨g, r, -, hc⟩ | hc⟩ := h
  · rfl
  · exact hc.inputs
  · exact hc.inputs

/-- The port history grows by the operation's own calls. -/
theorem Went.trace {i : Instr} {s t : State} (h : Went i s t) : ∃ evs, Calls i s evs ∧ t.trace = s.trace ++ evs := by
  obtain ⟨e, rfl, -⟩ | ⟨evs, hcalls, ⟨g, r, -, hc⟩ | hc⟩ := h
  · exact ⟨[], .inr (.inr rfl), by simp⟩
  · exact ⟨evs, hcalls, hc.trace⟩
  · exact ⟨evs, hcalls, hc.trace⟩

/-- The registers an operation leaves: those of reset if one aborted it, its own if it was refused, else those it
ends with. -/
theorem Went.registers {i : Instr} {s t : State} (h : Went i s t) :
    AbortedByReset s t ∨ t.registers = s.registers ∨ ∃ r, Ends i s t.registers r := by
  obtain ⟨e, rfl, -⟩ | ⟨evs, -, ⟨g, r, he, hc⟩ | hc⟩ := h
  · exact .inr (.inl rfl)
  · exact .inr (.inr ⟨r, hc.registers ▸ he⟩)
  · exact .inl ⟨by simpa using hc.responses, hc.registers⟩

/-- The registers a step leaves. -/
theorem step_registers {s t : State} (h : step s = .next t) :
    t.registers = s.registers ∨ t.registers = State.reset.registers ∨
      ∃ i ins r, Ends i { s with inputs := ins } t.registers r := by
  obtain ⟨-, rfl⟩ | ⟨ins, -, rfl⟩ | ⟨it, ins, i, -, -, h⟩ | ⟨it, ins, e, -, -, -, -, rfl⟩ := step_next h
  · exact .inl rfl
  · exact .inr (.inl rfl)
  · obtain ⟨-, h⟩ | h | ⟨r, h⟩ := (exec_went h).registers
    · exact .inr (.inl h)
    · exact .inl h
    · exact .inr (.inr ⟨_, ins, r, h⟩)
  · exact .inl rfl

/-- A property of the registers that holds at reset, and that every way an operation ends keeps, is kept by every
step. -/
theorem step_keeps_of_ends {P : State → Prop} (hcongr : ∀ {s t : State}, t.registers = s.registers → P s → P t)
    (hreset : P State.reset) (hends : ∀ {i s g r}, P s → Ends i s g r → P (s.withRegisters g)) {s t : State} (hs : P s)
    (h : step s = .next t) : P t := by
  obtain h | h | ⟨i, ins, r, h⟩ := step_registers h
  · exact hcongr h hs
  · exact hcongr h hreset
  · have hs' : P { s with inputs := ins } := hcongr (s := s) rfl hs
    exact hcongr (s := State.withRegisters { s with inputs := ins } t.registers) rfl (hends hs' h)

/-! ### R29's invariant and its companion -/

theorem connected_iff (f : Fsm) : connected f = true ↔ (f = .registered ∨ f = .master) := by
  simp [connected]

theorem SessionInv.of_registers {s t : State} (h : t.registers = s.registers) (hs : SessionInv s) : SessionInv t := by
  obtain ⟨hfsm, hdev, hhost, hout, -, -⟩ := registers_eq h
  obtain ⟨h1, h2, h3, h4⟩ := hs
  constructor <;> simpa only [hfsm, hdev, hhost, hout]

theorem ReceivedInv.of_registers {s t : State} (h : t.registers = s.registers) (hs : ReceivedInv s) :
    ReceivedInv t := by
  obtain ⟨hfsm, -, -, hout, hpay, hms⟩ := registers_eq h
  obtain ⟨h1, h2, h3, h4⟩ := hs
  constructor <;> simpa only [hfsm, hout, hpay, hms]

theorem reset_sessionInv : SessionInv State.reset := ⟨by decide, by decide, by decide, by decide⟩

theorem reset_receivedInv : ReceivedInv State.reset :=
  ⟨by decide, fun _ => rfl, (fun _ h => nomatch h), by decide⟩

/-- R29: the invariant outside a session. -/
theorem sessionInv_of_disconnected {s : State} (hfsm : s.fsm = .disconnected) (hhost : s.host = none)
    (hout : s.out = false) : SessionInv s := by
  constructor <;> simp [hfsm, hhost, hout]

/-- R29: the invariant in a session. -/
theorem sessionInv_of_session {s : State} (hfsm : s.fsm = .registered ∨ s.fsm = .master) (hhost : s.host.isSome = true)
    (hdev : s.dev.isSome = true) : SessionInv s :=
  ⟨iff_of_true hhost hfsm, by rcases hfsm with h | h <;> simp [h], fun _ => hfsm, fun _ => hdev⟩

theorem SessionInv.host_none {s : State} (h : SessionInv s) (hfsm : s.fsm = .disconnected) : s.host = none := by
  have : ¬s.host.isSome = true := by simp [h.host_iff_session, hfsm]
  simpa using this

/-- R29: however an operation ends, the invariant holds of the registers it leaves. -/
theorem SessionInv.of_ends {i : Instr} {s : State} {g : Registers} {r : Response} (hs : SessionInv s)
    (h : Ends i s g r) : SessionInv (s.withRegisters g) := by
  have session (hf : s.fsm = .registered ∨ s.fsm = .master) : s.host.isSome = true ∧ s.dev.isSome = true :=
    ⟨hs.host_iff_session.2 hf, hs.dev_in_session hf⟩
  cases i with
  | config d =>
    obtain ⟨hout, hfsm, rfl, -⟩ := h
    exact sessionInv_of_disconnected hfsm (hs.host_none hfsm) hout
  | reghost id =>
    obtain ⟨-, -, hdev, ⟨b, rfl, -⟩ | ⟨e, -, rfl, -⟩⟩ := h
    · exact sessionInv_of_session (.inl rfl) rfl hdev
    · exact hs
  | assign =>
    obtain ⟨-, hfsm, ⟨rfl, -⟩ | ⟨e, -, rfl, -⟩⟩ := h
    · exact sessionInv_of_session (.inr rfl) (session (.inl hfsm)).1 (session (.inl hfsm)).2
    · exact hs
  | mstatus =>
    obtain ⟨-, -, ⟨m, rfl, -⟩ | ⟨e, -, rfl, -⟩⟩ := h
    · exact ⟨hs.host_iff_session, hs.not_registering, hs.out_in_session, hs.dev_in_session⟩
    · exact hs
  | release =>
    obtain ⟨-, hfsm, ⟨rfl, -⟩ | ⟨e, -, rfl, -⟩⟩ := h
    · exact sessionInv_of_session (.inl rfl) (session (.inr hfsm)).1 (session (.inr hfsm)).2
    · exact hs
  | send c data =>
    obtain ⟨-, hfsm, -, ⟨rfl, -⟩ | ⟨rfl, -⟩⟩ := h
    · have hfsm := (connected_iff _).1 hfsm
      exact sessionInv_of_session hfsm (session hfsm).1 (session hfsm).2
    · exact hs
  | recv =>
    obtain ⟨hout, ⟨f, -, rfl, -⟩ | ⟨e, -, rfl, -⟩⟩ := h
    all_goals
      have hfsm := hs.out_in_session hout
      exact sessionInv_of_session hfsm (session hfsm).1 (session hfsm).2
  | check =>
    obtain ⟨rfl, -⟩ := h
    exact hs
  | disconnect =>
    obtain ⟨hout, rfl, -⟩ := h
    exact sessionInv_of_disconnected rfl rfl hout
  | _ => exact h.elim

/-- R26, R27: in a session no payload or flag is out of place, so only the payload itself is to be checked. -/
theorem receivedInv_of_session {s : State} (hfsm : s.fsm = .registered ∨ s.fsm = .master)
    (hout : s.out = true → s.pay = none) (hpay : ∀ f, s.pay = some f → f.data.length ≤ 255) : ReceivedInv s :=
  ⟨fun _ => hfsm, hout, hpay, fun _ => hfsm⟩

/-- R26, R27: however an operation ends, the received data and the flags it leaves are in place. -/
theorem ReceivedInv.of_ends {i : Instr} {s : State} {g : Registers} {r : Response} (hs : SessionInv s)
    (hv : ReceivedInv s) (h : Ends i s g r) : ReceivedInv (s.withRegisters g) := by
  cases i with
  | config d =>
    obtain ⟨-, -, rfl, -⟩ := h
    exact ⟨hv.pay_in_session, hv.pay_answers_latest, hv.pay_fits, hv.ms_in_session⟩
  | reghost id =>
    obtain ⟨-, -, -, ⟨b, rfl, -⟩ | ⟨e, -, rfl, -⟩⟩ := h
    · exact receivedInv_of_session (.inl rfl) hv.pay_answers_latest hv.pay_fits
    · exact hv
  | assign =>
    obtain ⟨-, -, ⟨rfl, -⟩ | ⟨e, -, rfl, -⟩⟩ := h
    · exact receivedInv_of_session (.inr rfl) hv.pay_answers_latest hv.pay_fits
    · exact hv
  | mstatus =>
    obtain ⟨-, hfsm, ⟨m, rfl, -⟩ | ⟨e, -, rfl, -⟩⟩ := h
    · exact receivedInv_of_session ((connected_iff _).1 hfsm) hv.pay_answers_latest hv.pay_fits
    · exact hv
  | release =>
    obtain ⟨-, -, ⟨rfl, -⟩ | ⟨e, -, rfl, -⟩⟩ := h
    · exact receivedInv_of_session (.inl rfl) hv.pay_answers_latest hv.pay_fits
    · exact hv
  | send c data =>
    obtain ⟨-, hfsm, -, ⟨rfl, -⟩ | ⟨rfl, -⟩⟩ := h
    · exact receivedInv_of_session ((connected_iff _).1 hfsm) (fun _ => rfl) (fun _ h => nomatch h)
    · exact hv
  | recv =>
    obtain ⟨hout, ⟨f, hf, rfl, -⟩ | ⟨e, -, rfl, -⟩⟩ := h
    · exact receivedInv_of_session (hs.out_in_session hout) (fun h => nomatch h)
        (fun f' h => Option.some.inj h ▸ hf)
    · exact receivedInv_of_session (hs.out_in_session hout) (fun _ => rfl) (fun _ h => nomatch h)
  | check =>
    obtain ⟨rfl, -⟩ := h
    exact hv
  | disconnect =>
    obtain ⟨-, rfl, -⟩ := h
    exact ⟨(fun h => nomatch h), fun _ => rfl, (fun _ h => nomatch h), (fun h => nomatch h)⟩
  | _ => exact h.elim

/-- Settles O45: reset and every way an operation ends keep R29's invariant of the registers. -/
theorem everyStepKeepsTheSessionInvariant : Obligations.EveryStepKeepsTheSessionInvariant :=
  fun _ _ => step_keeps_of_ends SessionInv.of_registers reset_sessionInv SessionInv.of_ends

/-- Settles O46, by carrying R29's invariant along: RECV takes a payload only while a request is outstanding, which
R29 allows in a session only. -/
theorem everyStepKeepsTheReceivedInvariant : Obligations.EveryStepKeepsTheReceivedInvariant := by
  intro s t hs hv h
  exact (step_keeps_of_ends (P := fun s => SessionInv s ∧ ReceivedInv s)
    (fun h ⟨hs, hv⟩ => ⟨hs.of_registers h, hv.of_registers h⟩) ⟨reset_sessionInv, reset_receivedInv⟩
    (fun ⟨hs, hv⟩ h => ⟨hs.of_ends h, hv.of_ends hs h⟩) ⟨hs, hv⟩ h).2

/-- Settles O44: every valid bit and every list is empty at reset. -/
theorem resetMeetsTheInvariants : Obligations.ResetMeetsTheInvariants :=
  ⟨reset_sessionInv, reset_receivedInv, (fun _ h => nomatch h), ⟨by decide, by decide⟩⟩

/-! ### The frames of the operations -/

/-- R23 to R27: `old` with the registers the operation `i` may write taken from `new`. A wire command is replaced by
its operation before this is asked. -/
def written (i : Instr) (old new : Registers) : Registers :=
  match i with
  | .config _ => { old with dev := new.dev }
  | .reghost _ => { old with fsm := new.fsm, host := new.host }
  | .assign => { old with fsm := new.fsm }
  | .mstatus => { old with ms := new.ms }
  | .release => { old with fsm := new.fsm }
  | .send _ _ => { old with out := new.out, pay := new.pay }
  | .recv => { old with out := new.out, pay := new.pay }
  | .check => old
  | .disconnect => { old with fsm := new.fsm, host := new.host, pay := new.pay, ms := new.ms }
  | _ => old

@[simp] theorem written_self (i : Instr) (g : Registers) : written i g g = g := by cases i <;> rfl

/-- An operation that ends wrote only its own registers. -/
theorem Ends.eq_written {i : Instr} {s : State} {g : Registers} {r : Response} (h : Ends i s g r) :
    g = written i s.registers g := by
  cases i with
  | config d =>
    obtain ⟨-, -, rfl, -⟩ := h
    rfl
  | reghost id =>
    obtain ⟨-, -, -, ⟨b, rfl, -⟩ | ⟨e, -, rfl, -⟩⟩ := h <;> rfl
  | assign =>
    obtain ⟨-, -, ⟨rfl, -⟩ | ⟨e, -, rfl, -⟩⟩ := h <;> rfl
  | mstatus =>
    obtain ⟨-, -, ⟨m, rfl, -⟩ | ⟨e, -, rfl, -⟩⟩ := h <;> rfl
  | release =>
    obtain ⟨-, -, ⟨rfl, -⟩ | ⟨e, -, rfl, -⟩⟩ := h <;> rfl
  | send c data =>
    obtain ⟨-, -, -, ⟨rfl, -⟩ | ⟨rfl, -⟩⟩ := h <;> rfl
  | recv =>
    obtain ⟨-, ⟨f, -, rfl, -⟩ | ⟨e, -, rfl, -⟩⟩ := h <;> rfl
  | check =>
    obtain ⟨rfl, -⟩ := h
    rfl
  | disconnect =>
    obtain ⟨-, rfl, -⟩ := h
    rfl
  | _ => exact h.elim

/-- Unless a reset aborts it, an operation writes only its own registers. -/
theorem Went.eq_written {i : Instr} {s t : State} (h : Went i s t) :
    AbortedByReset s t ∨ t.registers = written i s.registers t.registers := by
  obtain h | h | ⟨r, h⟩ := h.registers
  · exact .inl h
  · exact .inr (by simp [h])
  · exact .inr h.eq_written

/-- An operation that offers no frame and is not RECV makes no port call. -/
theorem Calls.eq_nil {i : Instr} {s : State} {evs : List PortEvent} (h : Calls i s evs) (hf : ∀ f, ¬Offers i s f)
    (hi : i ≠ .recv) : evs = [] := by
  obtain ⟨f, -, -, h, -⟩ | ⟨h, -⟩ | h := h
  · exact absurd h (hf f)
  · exact absurd h hi
  · exact h

/-- SEND takes nothing from RX. -/
theorem Calls.send_taken {c : Command} {data : Bytes} {s : State} {evs : List PortEvent}
    (h : Calls (.send c data) s evs) : evs.flatMap PortEvent.taken = [] := by
  obtain ⟨f, k, rx, -, -, rfl, -, -, hrx⟩ | ⟨h, -⟩ | rfl := h
  · simp [hrx c data rfl, PortEvent.taken]
  · cases h
  · rfl

theorem PortEvent.sent_of_isRx {e : PortEvent} (h : e.isRx = true) : e.sent = [] := by
  cases e with
  | tx f k => cases h
  | rx b => rfl
  | rxTimeout => rfl

/-- RECV sends nothing. -/
theorem Calls.recv_sent {s : State} {evs : List PortEvent} (h : Calls .recv s evs) :
    evs.flatMap PortEvent.sent = [] := by
  obtain ⟨f, -, -, h, -⟩ | ⟨-, h, -⟩ | rfl := h
  · exact h.elim
  · exact List.flatMap_eq_nil_iff.2 fun e he => PortEvent.sent_of_isRx (h e he)
  · rfl

theorem Went.trace_eq {i : Instr} {s t : State} (h : Went i s t) (hf : ∀ f, ¬Offers i s f) (hi : i ≠ .recv) :
    t.trace = s.trace := by
  obtain ⟨evs, hc, ht⟩ := h.trace
  rw [ht, hc.eq_nil hf hi, List.append_nil]

theorem Went.send_rxStream {c : Command} {data : Bytes} {s t : State} (h : Went (.send c data) s t) :
    t.rxStream = s.rxStream := by
  obtain ⟨evs, hc, ht⟩ := h.trace
  simp [State.rxStream, ht, hc.send_taken]

theorem Went.recv_txStream {s t : State} (h : Went .recv s t) : t.txStream = s.txStream := by
  obtain ⟨evs, hc, ht⟩ := h.trace
  simp [State.txStream, ht, hc.recv_sent]

/-- Settles O37: each operation writes only its own registers, and its port calls are those `Calls` allows. -/
theorem facadeOperationsKeepTheRest : Obligations.FacadeOperationsKeepTheRest := by
  intro i s t h
  have hw := exec_went h
  have hin := hw.inputs
  obtain ha | hr := hw.eq_written
  · exact .inl ha
  refine .inr ⟨fun d hi => ?_, fun c data hi => ?_, fun hi => ?_, fun hi => ?_⟩ <;> rw [hi] at hw hr
  · obtain ⟨hfsm, hhost, hout, hpay, hms⟩ := by simpa [State.registers, written] using hr
    exact ⟨hfsm, hhost, hout, hpay, hms, hin, hw.trace_eq (fun _ => id) (by simp)⟩
  · obtain ⟨hfsm, hdev, hhost, hms⟩ := by simpa [State.registers, written] using hr
    exact ⟨hfsm, hdev, hhost, hms, hin, hw.send_rxStream⟩
  · obtain ⟨hfsm, hdev, hhost, hms⟩ := by simpa [State.registers, written] using hr
    exact ⟨hfsm, hdev, hhost, hms, hin, hw.recv_txStream⟩
  · exact ⟨hr, hin, hw.trace_eq (fun _ => id) (by simp)⟩

/-- Settles O38: each operation writes only its own registers. -/
theorem arbitrationOperationsKeepTheRest : Obligations.ArbitrationOperationsKeepTheRest := by
  intro i s t h
  have hin := (exec_went h).inputs
  obtain ha | hr := (exec_went h).eq_written
  · exact .inl ha
  refine .inr ⟨fun id hi => ?_, fun hi => ?_, fun hi => ?_, fun hi => ?_⟩
  · simpa [hi, State.registers, written, hin] using hr
  · rcases hi with hi | hi <;> simpa [hi, State.registers, written, hin] using hr
  · simpa [hi, State.registers, written, hin] using hr
  · simpa [hi, State.registers, written, hin] using hr

/-! ### Where an instruction stops -/

/-- 93_implementation_defined.md sections 2 to 4: the stops the spec leaves to an operation begun in `s`. -/
def StopAllowed (s : State) (q : Fault) : Prop :=
  (q = .registeringAtRest ∧ s.fsm = .registering) ∨ (q = .absentDev ∧ s.dev = none) ∨
    (q = .absentHost ∧ s.host = none) ∨ (q = .channelHangs ∧ ¬ChannelReturns s)

/-- The result of an operation begun in `s`: a next state or an allowed stop, and no refusal. -/
def StopsWithin (s : State) : Result → Prop
  | .next _ => True
  | .fault q => StopAllowed s q
  | .refused _ => False

theorem stopsWithin_atRest {s : State} {k : Result} (hk : StopsWithin s k) : StopsWithin s (atRest s k) := by
  unfold atRest
  split
  · exact .inl ⟨rfl, ‹_›⟩
  · exact hk

theorem stopsWithin_whenLegal {s : State} {k : Result} (legal : Fsm → Bool) (hk : StopsWithin s k) :
    StopsWithin s (whenLegal legal s k) := by
  refine stopsWithin_atRest ?_
  split
  · trivial
  · split
    · exact hk
    · trivial

theorem stopsWithin_withDev {s : State} {k : Byte → Result} (hk : ∀ d, StopsWithin s (k d)) :
    StopsWithin s (withDev s k) := by
  unfold withDev
  split
  · exact hk _
  · exact .inr (.inl ⟨rfl, ‹_›⟩)

theorem stopsWithin_withAddresses {s : State} {k : Byte → Byte → Result} (hk : ∀ d h, StopsWithin s (k d h)) :
    StopsWithin s (withAddresses s k) := by
  refine stopsWithin_withDev fun d => ?_
  split
  · exact hk d _
  · exact .inr (.inr (.inl ⟨rfl, ‹_›⟩))

/-- Port traffic that returns on a returning channel stops only where the channel does not return. -/
theorem stopsWithin_conclude {α : Type} {s : State} {p : Port α} {f : Err → State → Result} {k : α → State → Result}
    (hp : ChannelReturns s → p.Returns) (hf : ∀ e s', StopsWithin s (f e s')) (hk : ∀ a s', StopsWithin s (k a s')) :
    StopsWithin s (p.conclude f k) := by
  cases p with
  | ok a s' => exact hk a s'
  | raised e s' => exact hf e s'
  | aborted s' => trivial
  | stuck => exact .inr (.inr (.inr ⟨rfl, fun h => (hp h).1 rfl⟩))

theorem config_stopsWithin (d : Byte) (s : State) : StopsWithin s (config d s) := stopsWithin_whenLegal _ trivial

theorem reghost_stopsWithin (p : Params) {id : Bytes} (h : dataFits id = true) (s : State) :
    StopsWithin s (reghost p id s) := by
  rw [reghost, withinLane_fits ((dataFits_iff id).1 h)]
  refine stopsWithin_whenLegal _ ?_
  split
  · trivial
  · refine stopsWithin_withDev fun d => ?_
    exact stopsWithin_conclude (fun hc => controlReply_returns _ _ _ _ (hc.of_eq rfl rfl)) (fun _ _ => trivial)
      (fun _ _ => trivial)

theorem assign_stopsWithin (s : State) : StopsWithin s (assign s) :=
  stopsWithin_whenLegal _ <| stopsWithin_withAddresses fun d h =>
    stopsWithin_conclude (masterSet_returns d h _) (fun _ _ => trivial) (fun _ _ => trivial)

theorem mstatus_stopsWithin (p : Params) (s : State) : StopsWithin s (mstatus p s) :=
  stopsWithin_whenLegal _ <| stopsWithin_withAddresses fun d h =>
    stopsWithin_conclude (controlReply_returns d h _ _) (fun _ _ => trivial) (fun _ _ => trivial)

theorem release_stopsWithin (s : State) : StopsWithin s (release s) :=
  stopsWithin_whenLegal _ <| stopsWithin_withAddresses fun d h =>
    stopsWithin_conclude (masterSet_returns d h _) (fun _ _ => trivial) (fun _ _ => trivial)

theorem disconnect_stopsWithin (s : State) : StopsWithin s (disconnect s) := by
  refine stopsWithin_whenLegal _ ?_
  split
  · exact stopsWithin_withAddresses fun d h =>
      stopsWithin_conclude (masterSet_returns d h _) (fun _ _ => trivial) (fun _ _ => trivial)
  · trivial

theorem send_stopsWithin (c : Command) {data : Bytes} (h : dataFits data = true) (s : State) :
    StopsWithin s (send c data s) := by
  rw [send, withinLane_fits ((dataFits_iff data).1 h)]
  refine stopsWithin_whenLegal _ ?_
  split
  · trivial
  · exact stopsWithin_withAddresses fun d h =>
      stopsWithin_conclude (txSend_returns d h _ _) (fun _ _ => trivial) (fun _ _ => trivial)

theorem recv_stopsWithin (s : State) : StopsWithin s (recv s) := by
  refine stopsWithin_atRest ?_
  split
  · exact stopsWithin_conclude (fun hc => rxFrame_returns (hc.of_eq rfl rfl)) (fun _ _ => trivial) (fun _ _ => trivial)
  · trivial

theorem check_stopsWithin (p : Params) (s : State) : StopsWithin s (check p s) := by
  refine stopsWithin_atRest ?_
  split
  · trivial
  · split <;> trivial

/-- R76: the operation that sends a well-formed wire command is well formed. -/
theorem operation_wf {i : Instr} (h : i.wf = true) : (operation i).wf = true := by
  cases i with
  | wireDeviceGet c data =>
    simp only [Instr.wf, Bool.and_eq_true] at h
    exact h.1.1
  | wireDeviceSet c data =>
    simp only [Instr.wf, Bool.and_eq_true] at h
    exact h.1.1
  | _ => exact h

/-- A well-formed instruction gives a next state or stops where the spec says it has none. -/
theorem exec_stopsWithin {i : Instr} (hi : i.wf = true) (s : State) : StopsWithin s (exec i s) := by
  rw [exec_operation]
  have hi := operation_wf hi
  cases i with
  | config d => exact config_stopsWithin d s
  | reghost id | wireRegHost id => exact reghost_stopsWithin _ hi s
  | assign | wireMasterSetAssign => exact assign_stopsWithin s
  | mstatus | wireMasterGet => exact mstatus_stopsWithin _ s
  | release | wireMasterSetRelease => exact release_stopsWithin s
  | send c data | wireDeviceGet c data | wireDeviceSet c data => exact send_stopsWithin c hi s
  | recv => exact recv_stopsWithin s
  | check => exact check_stopsWithin _ s
  | disconnect => exact disconnect_stopsWithin s

theorem atRest_registering {s : State} (h : s.fsm = .registering) (k : Result) :
    atRest s k = .fault .registeringAtRest := if_pos h

/-- 93_implementation_defined.md section 2: in a state that shows REGISTERING every well-formed instruction stops. -/
theorem exec_registering {i : Instr} (hi : i.wf = true) {s : State} (h : s.fsm = .registering) :
    exec i s = .fault .registeringAtRest := by
  rw [exec_operation]
  have hi := operation_wf hi
  cases i with
  | reghost id | wireRegHost id =>
    exact (withinLane_fits ((dataFits_iff id).1 hi) _).trans (atRest_registering h _)
  | send c data | wireDeviceGet c data | wireDeviceSet c data =>
    exact (withinLane_fits ((dataFits_iff data).1 hi) _).trans (atRest_registering h _)
  | _ => exact atRest_registering h _

/-- Settles O43: every stop of a well-formed instruction is one of the allowed ones. -/
theorem instructionsStopOnlyOutsideTheSpec : Obligations.InstructionsStopOnlyOutsideTheSpec := by
  intro i s hi
  have hstop := exec_stopsWithin hi s
  refine ⟨exec_registering hi, fun r h => ?_, fun q h => ?_⟩ <;> rw [h] at hstop
  · exact hstop
  · exact hstop

/-! ### What a step runs -/

theorem step_idle {s : State} (h : s.inputs = []) : step s = .next s := by simp [step, fetch, h]

theorem step_run {s : State} {it : Item} {ins : List Input} {i : Instr} (h : s.inputs = .item it :: ins)
    (hd : decode it = .ok i) : step s = exec i { s with inputs := ins } := by simp [step, fetch, h, hd]

theorem step_undeliverable {s : State} {it : Item} {ins : List Input} (h : s.inputs = .item it :: ins)
    (hd : decode it = .error .laneMismatch) : step s = .fault .laneMismatch := by simp [step, fetch, h, hd]

/-- Settles O16: one case of the step per kind of input. -/
theorem stepRunsTheDecodedInstruction : Obligations.StepRunsTheDecodedInstruction :=
  fun _ _ => ⟨step_idle, fun _ _ => step_run, fun _ => step_undeliverable⟩

end Sys2Proof.Machine

/-! PROOFS. The port calls of one operation (R61, R111, R242). -/

namespace Sys2Proof.Machine

theorem PortEvent.isRx_iff (ev : PortEvent) : ev.isRx = true ↔ (∃ b, ev = .rx b) ∨ ev = .rxTimeout := by
  cases ev <;> simp [PortEvent.isRx]

/-- R61, R111: the calls of one operation, cut after its `TxFrame` call. -/
theorem Calls.eq_out_append_rx {i : Instr} {s : State} {evs : List PortEvent} (h : Calls i s evs) :
    ∃ out rx : List PortEvent, evs = out ++ rx ∧ out.length ≤ 1 ∧ rx.length ≤ 262 ∧
      (∀ ev ∈ out, ∃ f k, ev = .tx f k ∧ k ≤ f.length) ∧ ∀ ev ∈ rx, ev.isRx = true := by
  obtain ⟨f, k, rx, -, hk, rfl, hrx, hlen, -⟩ | ⟨-, hrx, hlen⟩ | rfl := h
  · exact ⟨[.tx f k], rx, rfl, Nat.le_refl 1, hlen, fun ev hev => ⟨f, k, List.mem_singleton.1 hev, hk⟩, hrx⟩
  · exact ⟨[], evs, rfl, Nat.zero_le 1, hlen, List.forall_mem_nil _, hrx⟩
  · exact ⟨[], [], rfl, Nat.zero_le 1, Nat.zero_le 262, List.forall_mem_nil _, List.forall_mem_nil _⟩

/-- Settles O39: the port history grows by the operation's own calls, and those are at most one `TxFrame` before at
most 262 `RxByte`. -/
theorem oneFrameOutThenBoundedBytesIn : Obligations.OneFrameOutThenBoundedBytesIn := by
  intro i s t h
  obtain ⟨evs, hcalls, htrace⟩ := (exec_went h).trace
  obtain ⟨out, rx, rfl, hout, hlen, htx, hrx⟩ := hcalls.eq_out_append_rx
  exact ⟨out, rx, by rw [htrace, List.append_assoc], hout, hlen, htx, fun ev hev => ev.isRx_iff.1 (hrx ev hev)⟩

end Sys2Proof.Machine

/-! PROOFS. Requests and frame commands (30_encoding.md sections 1 and 2): what decodes and to what, the opcode table's
rows, and the step on a request that is no instruction. -/

namespace Sys2Proof.Machine

/-! ### What decodes -/

/-- R80 to R83: a request decodes exactly when its word is legal, its lane exact, and its `OP` an operation's. -/
theorem decodeRequest_ok_iff {w : RequestWord} {lane : Bytes} {i : Instr} :
    decodeRequest w lane = .ok i ↔
      illegalWord w = none ∧ laneExact w lane = true ∧ operationOf w lane = some i := by
  constructor
  · intro h
    unfold decodeRequest at h
    split at h
    · cases h
    · split at h
      · split at h
        · cases h
          exact ⟨‹_›, ‹_›, ‹_›⟩
        · cases h
      · cases h
  · rintro ⟨hlegal, hlane, hop⟩
    simp [decodeRequest, hlegal, hlane, hop]

/-- A legal request decodes to the operation its word and lane give. -/
theorem decode_of_legalItem {w : RequestWord} {lane : Bytes} {i : Instr} (h : Laws.legalItem (.request w lane))
    (hop : operationOf w lane = some i) : decode (.request w lane) = .ok i :=
  decodeRequest_ok_iff.2 ⟨h.2, h.1, hop⟩

theorem isControl_eq_false_iff (c : Command) :
    isControl c = false ↔ c ≠ Config.regHost ∧ c ≠ Config.masterSet ∧ c ≠ Config.masterGet := by
  simp [isControl, and_assoc]

/-- R76: a command that is not a control code is a device command, "set" or "get" by its bit 15 (R75). -/
theorem decodeFrameCommand_device {c : Command} {data : Bytes} (hd : dataFits data = true) (hc : isControl c = false) :
    decodeFrameCommand c data = .ok (if setBit c then .wireDeviceSet c data else .wireDeviceGet c data) := by
  obtain ⟨h1, h2, h3⟩ := (isControl_eq_false_iff c).1 hc
  simp only [decodeFrameCommand, hd, h1, h2, h3, Bool.not_true, Bool.false_eq_true, ↓reduceIte]
  split <;> rfl

/-- R76, R80 to R82: decoding inverts encoding. -/
theorem decode_encode {i : Instr} (h : i.wf = true) : decode i.encode = .ok i := by
  cases i with
  | config dev => exact decode_of_legalItem (Laws.EncodeLegal.config dev h) (by simp [operationOf])
  | reghost id => exact decode_of_legalItem (Laws.EncodeLegal.reghost id h) (by simp [operationOf])
  | assign => exact decode_of_legalItem (Laws.EncodeLegal.assign h) (by simp [operationOf])
  | mstatus => exact decode_of_legalItem (Laws.EncodeLegal.mstatus h) (by simp [operationOf])
  | release => exact decode_of_legalItem (Laws.EncodeLegal.release h) (by simp [operationOf])
  | send c data => exact decode_of_legalItem (Laws.EncodeLegal.send c data h) (by simp [operationOf])
  | recv => exact decode_of_legalItem (Laws.EncodeLegal.recv h) (by simp [operationOf])
  | check => exact decode_of_legalItem (Laws.EncodeLegal.check h) (by simp [operationOf])
  | disconnect => exact decode_of_legalItem (Laws.EncodeLegal.disconnect h) (by simp [operationOf])
  | wireRegHost id =>
    have hd : dataFits id = true := h
    simp [Instr.encode, decode, decodeFrameCommand, hd]
  | wireMasterSetAssign | wireMasterSetRelease | wireMasterGet => rfl
  | wireDeviceGet c data =>
    obtain ⟨⟨hd, hc⟩, hb⟩ := by simpa [Instr.wf] using h
    exact (decodeFrameCommand_device hd hc).trans (by simp [hb])
  | wireDeviceSet c data =>
    obtain ⟨⟨hd, hc⟩, hb⟩ := by simpa [Instr.wf] using h
    exact (decodeFrameCommand_device hd hc).trans (by simp [hb])

/-- Settles O11: the encoding of a well-formed instruction is legal, and its `OP` or command names its row. -/
theorem decodeOfEncodeGivesTheInstruction : Obligations.DecodeOfEncodeGivesTheInstruction := fun _ => decode_encode

/-! ### The one encoding of what decodes -/

theorem laneExact_iff {w : RequestWord} {lane : Bytes} : laneExact w lane = true ↔ lane.length = laneLength w :=
  decide_eq_true_iff

/-- R80: the lane of REGHOST and SEND has the length their `LEN` says, which is within R66's bound. -/
theorem lane_of_operands {w : RequestWord} {lane : Bytes} (h : laneExact w lane = true)
    (hop : RequestWord.op w = 0x2 ∨ RequestWord.op w = 0x6) : dataFits lane = true ∧ lenByte lane = RequestWord.len w := by
  have hlen : lane.length = (RequestWord.len w).toNat := by rw [laneExact_iff.1 h, laneLength, if_pos hop]
  have hbyte := (RequestWord.len w).isLt
  exact ⟨(dataFits_iff lane).2 (by omega), by simp [lenByte, hlen]⟩

/-- R80: no other request has a lane. -/
theorem lane_of_no_operands {w : RequestWord} {lane : Bytes} (h : laneExact w lane = true)
    (hop : ¬(RequestWord.op w = 0x2 ∨ RequestWord.op w = 0x6)) : lane = [] :=
  List.length_eq_zero_iff.1 (by rw [laneExact_iff.1 h, laneLength, if_neg hop])

/-- R82: a legal word is its `OP`, its `CMD` and its `LEN`. -/
theorem requestWord_of_legal {w : RequestWord} {k : BitVec 4} (h : illegalWord w = none)
    (hop : RequestWord.op w = k) : requestWord k (RequestWord.cmd w) (RequestWord.len w) = w :=
  hop ▸ requestWord_fields w (illegalWord_none h).1

/-- R82: a legal word of an operation other than SEND has no `CMD`. -/
theorem requestWord_of_legal_operand8 {w : RequestWord} {k : BitVec 4} (h : illegalWord w = none)
    (hop : RequestWord.op w = k) (hk : k.toNat ≠ 6) : requestWord k 0 (RequestWord.len w) = w := by
  have hcmd := (illegalWord_none h).2.1 (hop ▸ hk)
  rw [← hcmd, requestWord_of_legal h hop]

/-- R82: a legal request of an operation without operands is its `OP` alone, with no lane. -/
theorem request_of_legal_bare {w : RequestWord} {lane : Bytes} {k : BitVec 4} (h : illegalWord w = none)
    (hlane : laneExact w lane = true) (hop : RequestWord.op w = k)
    (hk : k.toNat ≠ 1 ∧ k.toNat ≠ 2 ∧ k.toNat ≠ 6) : Item.request (requestWord k 0 0) [] = .request w lane := by
  have hlen := (illegalWord_none h).2.2 (hop ▸ hk)
  obtain ⟨-, h2, h6⟩ := hk
  have hnone : ¬(k = 0x2 ∨ k = 0x6) := by
    rintro (rfl | rfl)
    · exact h2 rfl
    · exact h6 rfl
  rw [lane_of_no_operands hlane (hop ▸ hnone), ← hlen, requestWord_of_legal_operand8 h hop h6]

theorem op_eq_ofNat {w : RequestWord} {n : Nat} (h : (RequestWord.op w).toNat = n) :
    RequestWord.op w = BitVec.ofNat 4 n := by
  rw [← h, BitVec.ofNat_toNat, BitVec.setWidth_eq]

/-- R80 to R83: the operation a request decodes to is well formed and has that request as its encoding. -/
theorem encode_of_decodeRequest {w : RequestWord} {lane : Bytes} {i : Instr} (h : decodeRequest w lane = .ok i) :
    i.wf = true ∧ i.encode = .request w lane := by
  obtain ⟨hlegal, hlane, hop⟩ := decodeRequest_ok_iff.1 h
  have bare {k : BitVec 4} (hk : RequestWord.op w = k) (hne : k.toNat ≠ 1 ∧ k.toNat ≠ 2 ∧ k.toNat ≠ 6) :=
    request_of_legal_bare hlegal hlane hk hne
  unfold operationOf at hop
  split at hop <;> cases hop
  all_goals
    rename_i hn
    replace hn := op_eq_ofNat hn
  · have hword := requestWord_of_legal_operand8 (k := 1) hlegal hn (by decide)
    have hnil : lane = [] := lane_of_no_operands hlane (by rw [hn]; decide)
    exact ⟨rfl, by rw [Instr.encode, hword, hnil]⟩
  · have hword := requestWord_of_legal_operand8 (k := 2) hlegal hn (by decide)
    obtain ⟨hfits, hlen⟩ := lane_of_operands hlane (.inl hn)
    exact ⟨hfits, by rw [Instr.encode, hlen, hword]⟩
  · exact ⟨rfl, bare hn (by decide)⟩
  · exact ⟨rfl, bare hn (by decide)⟩
  · exact ⟨rfl, bare hn (by decide)⟩
  · have hword := requestWord_of_legal (k := 6) hlegal hn
    obtain ⟨hfits, hlen⟩ := lane_of_operands hlane (.inr hn)
    exact ⟨hfits, by rw [Instr.encode, hlen, hword]⟩
  · exact ⟨rfl, bare hn (by decide)⟩
  · exact ⟨rfl, bare hn (by decide)⟩
  · exact ⟨rfl, bare hn (by decide)⟩

/-- R76: the wire command a frame command decodes to is well formed and has that frame command as its encoding. -/
theorem encode_of_decodeFrameCommand {c : Command} {data : Bytes} {i : Instr} (h : decodeFrameCommand c data = .ok i) :
    i.wf = true ∧ i.encode = .frameCommand c data := by
  unfold decodeFrameCommand at h
  split at h
  · cases h
  have hd : dataFits data = true := by simpa using ‹¬(!dataFits data) = true›
  split at h
  · cases h
    exact ⟨hd, by rw [Instr.encode, ‹c = Config.regHost›]⟩
  split at h
  · subst c
    split at h
    · cases h
      exact ⟨rfl, by rw [Instr.encode, ‹data = [Config.assignByte]›]⟩
    · split at h <;> cases h
      exact ⟨rfl, by rw [Instr.encode, ‹data = [Config.releaseByte]›]⟩
  split at h
  · subst c
    split at h <;> cases h
    exact ⟨rfl, by rw [Instr.encode, ‹data = []›]⟩
  have hc : isControl c = false := (isControl_eq_false_iff c).2 ⟨‹_›, ‹_›, ‹_›⟩
  split at h <;> cases h <;> rename_i hb
  · exact ⟨by simp [Instr.wf, hd, hc, hb], rfl⟩
  · exact ⟨by simp [Instr.wf, hd, hc, hb], rfl⟩

/-- R76, R80 to R83: what decodes is well formed, and its encoding is the item it came from. -/
theorem encode_of_decode {it : Item} {i : Instr} (h : decode it = .ok i) : i.wf = true ∧ i.encode = it := by
  cases it with
  | request w lane => exact encode_of_decodeRequest h
  | frameCommand c data => exact encode_of_decodeFrameCommand h

/-- Settles O12: the fields a legal item leaves unused are zero, so its instruction determines it. -/
theorem encodingsAreUnique : Obligations.EncodingsAreUnique := fun _ _ => encode_of_decode

/-! ### The opcode table -/

/-- R82, R83: a word of an operation with an 8-bit operand is legal without reserved bits and without `CMD`. -/
theorem illegalWord_operand8 {w : RequestWord} (hop : RequestWord.op w = 1 ∨ RequestWord.op w = 2)
    (hrsv : RequestWord.rsv w = 0) (hcmd : RequestWord.cmd w = 0) : illegalWord w = none := by
  rcases hop with hop | hop <;> simp [illegalWord, hop, hrsv, hcmd]

/-- R82, R83: a word of SEND is legal without reserved bits. -/
theorem illegalWord_operand24 {w : RequestWord} (hop : RequestWord.op w = 6) (hrsv : RequestWord.rsv w = 0) :
    illegalWord w = none := by
  simp [illegalWord, hop, hrsv]

/-- R82: a word matches a row without operands exactly when it is the row's pattern. -/
theorem matches_bare (w p : RequestWord) : w &&& 0xFFFFFFFF#32 = p ↔ w = p := by
  rw [show 0xFFFFFFFF#32 = BitVec.allOnes 32 from rfl, BitVec.and_allOnes]

/-- R81, R82: the encoding of an operation has a row of the table, of the operation's mnemonic. -/
theorem row_of_encode {i : Instr} {w : RequestWord} {lane : Bytes} (h : i.encode = .request w lane) :
    ∃ row ∈ requestTable, w &&& row.mask = row.pattern ∧ row.mnemonic = i.mnemonic := by
  cases i with
  | config dev =>
    cases h
    exact ⟨⟨"CONFIG", 0x10000000, 0xFFFFFF00⟩, by decide, (matches_operand8 _ 1).2 (by simp), rfl⟩
  | reghost id =>
    cases h
    exact ⟨⟨"REGHOST", 0x20000000, 0xFFFFFF00⟩, by decide, (matches_operand8 _ 2).2 (by simp), rfl⟩
  | assign =>
    cases h
    exact ⟨⟨"ASSIGN", 0x30000000, 0xFFFFFFFF⟩, by decide, by decide, rfl⟩
  | mstatus =>
    cases h
    exact ⟨⟨"MSTATUS", 0x40000000, 0xFFFFFFFF⟩, by decide, by decide, rfl⟩
  | release =>
    cases h
    exact ⟨⟨"RELEASE", 0x50000000, 0xFFFFFFFF⟩, by decide, by decide, rfl⟩
  | send c data =>
    cases h
    exact ⟨⟨"SEND", 0x60000000, 0xFF000000⟩, by decide, (matches_operand24 _ 6).2 (by simp), rfl⟩
  | recv =>
    cases h
    exact ⟨⟨"RECV", 0x70000000, 0xFFFFFFFF⟩, by decide, by decide, rfl⟩
  | check =>
    cases h
    exact ⟨⟨"CHECK", 0x80000000, 0xFFFFFFFF⟩, by decide, by decide, rfl⟩
  | disconnect =>
    cases h
    exact ⟨⟨"DISCONNECT", 0x90000000, 0xFFFFFFFF⟩, by decide, by decide, rfl⟩
  | _ => cases h

/-- R81, R82: a request the port can deliver, whose word has a row of the table, decodes to that row's operation. -/
theorem decode_of_row {w : RequestWord} {lane : Bytes} {row : TableRow} (hlane : laneExact w lane = true)
    (hrow : row ∈ requestTable) (hm : w &&& row.mask = row.pattern) :
    ∃ i, decode (.request w lane) = .ok i ∧ i.mnemonic = row.mnemonic := by
  have bare {i : Instr} (p : RequestWord) (hw : w &&& 0xFFFFFFFF#32 = p) (hp : illegalWord p = none)
      (hi : operationOf p lane = some i) : decode (.request w lane) = .ok i := by
    obtain rfl := (matches_bare w p).1 hw
    exact decodeRequest_ok_iff.2 ⟨hp, hlane, hi⟩
  simp only [requestTable, List.mem_cons, List.not_mem_nil, or_false] at hrow
  obtain rfl | rfl | rfl | rfl | rfl | rfl | rfl | rfl | rfl := hrow
  · obtain ⟨hop, hrsv, hcmd⟩ := (matches_operand8 w 1).1 hm
    have hi : operationOf w lane = some (.config (RequestWord.len w)) := by simp [operationOf, hop]
    exact ⟨_, decodeRequest_ok_iff.2 ⟨illegalWord_operand8 (.inl hop) hrsv hcmd, hlane, hi⟩, rfl⟩
  · obtain ⟨hop, hrsv, hcmd⟩ := (matches_operand8 w 2).1 hm
    have hi : operationOf w lane = some (.reghost lane) := by simp [operationOf, hop]
    exact ⟨_, decodeRequest_ok_iff.2 ⟨illegalWord_operand8 (.inr hop) hrsv hcmd, hlane, hi⟩, rfl⟩
  · exact ⟨_, bare 0x30000000 hm (by decide) rfl, rfl⟩
  · exact ⟨_, bare 0x40000000 hm (by decide) rfl, rfl⟩
  · exact ⟨_, bare 0x50000000 hm (by decide) rfl, rfl⟩
  · obtain ⟨hop, hrsv⟩ := (matches_operand24 w 6).1 hm
    have hi : operationOf w lane = some (.send (RequestWord.cmd w) lane) := by simp [operationOf, hop]
    exact ⟨_, decodeRequest_ok_iff.2 ⟨illegalWord_operand24 hop hrsv, hlane, hi⟩, rfl⟩
  · exact ⟨_, bare 0x70000000 hm (by decide) rfl, rfl⟩
  · exact ⟨_, bare 0x80000000 hm (by decide) rfl, rfl⟩
  · exact ⟨_, bare 0x90000000 hm (by decide) rfl, rfl⟩

/-- Settles O13: a request that decodes is the encoding of its operation, and a row fixes what makes its word legal. -/
theorem requestsFollowTheOpcodeTable : Obligations.RequestsFollowTheOpcodeTable :=
  fun _ _ hlane => ⟨fun _ h => row_of_encode (encode_of_decode h).2, fun _ => decode_of_row hlane⟩

/-! ### Reserved and malformed words -/

/-- R83: a reserved `OP` is not legal. -/
theorem op_of_legal {w : RequestWord} (h : illegalWord w = none) :
    1 ≤ (RequestWord.op w).toNat ∧ (RequestWord.op w).toNat ≤ 9 := by
  unfold illegalWord at h
  split at h
  · cases h
  split at h
  case h_10 => cases h
  all_goals omega

/-- R80, R83: the lane is no part of a word's legality. -/
theorem illegalWord_ne_laneMismatch (w : RequestWord) : illegalWord w ≠ some .laneMismatch := by
  unfold illegalWord
  split
  · simp
  split
  case h_1 | h_2 => split <;> simp
  case h_3 | h_10 => simp
  all_goals
    split
    · simp
    · split <;> simp

/-- R83, R203 step 1: an item that is no instruction, and that the port can deliver, is taken and answered. -/
theorem step_of_decode_error {s : State} {it : Item} {ins : List Input} {e : DecodeError}
    (h : s.inputs = .item it :: ins) (hd : decode it = .error e) (he : e ≠ .laneMismatch) :
    step s = illegalRequest { s with inputs := ins } := by
  cases e with
  | laneMismatch => exact absurd rfl he
  | _ => simp [step, fetch, h, hd]

/-- R83: a reserved or malformed request is taken and answered, whatever its lane. -/
theorem step_of_illegalWord {s : State} {w : RequestWord} {lane : Bytes} {ins : List Input}
    (h : s.inputs = .item (.request w lane) :: ins) (hw : illegalWord w ≠ none) :
    step s = illegalRequest { s with inputs := ins } := by
  obtain ⟨e, he⟩ := Option.ne_none_iff_exists'.1 hw
  have hd : decode (.request w lane) = .error e := by simp [decode, decodeRequest, he]
  exact step_of_decode_error h hd fun heq => illegalWord_ne_laneMismatch w (heq ▸ he)

/-- Settles O14: each of the rule's conditions fails in a legal word, and an illegal one raises `ILLEGAL` only. -/
theorem illegalRequestsHaveNoOtherEffect : Obligations.IllegalRequestsHaveNoOtherEffect := by
  intro s w lane ins op rsv cmd len hin hfsm hbad
  have hw : illegalWord w ≠ none := by
    intro hlegal
    obtain ⟨hrsv, hcmd, hlen⟩ := illegalWord_none hlegal
    obtain ⟨hlow, hhigh⟩ := op_of_legal hlegal
    change 1 ≤ op at hlow
    change op ≤ 9 at hhigh
    rcases hbad with h | h | h | ⟨h, hc⟩ | ⟨h, hl⟩
    · omega
    · omega
    · exact h hrsv
    · exact hc (hcmd h)
    · exact hl (hlen ⟨show op ≠ 1 by omega, show op ≠ 2 by omega, show op ≠ 6 by omega⟩)
  exact (step_of_illegalWord hin hw).trans (atRest_of_ne hfsm _)

/-- Settles O15: each word is legal and its lane exact, or each frame command has its row. -/
theorem specWordsDecode : Obligations.SpecWordsDecode := by
  unfold Obligations.SpecWordsDecode
  decide

end Sys2Proof.Machine

/-! PROOFS. The rules of the operations a wire command stands for (R135, R170 to R185; log entry 1). Each is stated for
every instruction whose meaning is the operation's, so it serves the operation and its wire command alike. -/

namespace Sys2Proof.Machine

/-! ### Admission -/

/-- R203 step 2: an outstanding response makes the operation `BUSY`. -/
theorem whenLegal_busy (legal : Fsm → Bool) {s : State} (hr : s.fsm ≠ .registering) (ho : s.out = true) (k : Result) :
    whenLegal legal s k = .next (s.answer (Response.error .busy s)) := by
  simp [whenLegal, hr, ho]

/-- R203 step 3: the operation is refused where `FSM` forbids it. -/
theorem whenLegal_fsmState {legal : Fsm → Bool} {s : State} (hr : s.fsm ≠ .registering) (ho : s.out = false)
    (hl : legal s.fsm = false) (k : Result) : whenLegal legal s k = .next (s.answer (Response.error .fsmState s)) := by
  simp [whenLegal, hr, ho, hl]

theorem isControl_iff (c : Command) : isControl c = true ↔ (c = 0x7FF0 ∨ c = 0xFFF1 ∨ c = 0x7FF1) := by
  simp only [isControl, Bool.or_eq_true, decide_eq_true_eq, or_assoc]
  rfl

/-! ### Transactions -/

/-- R162: a transaction on the environment's lists that hold one whole frame each way. -/
theorem transact_exchanged {dev hostbyte : Byte} {cmd : Command} {sent : Bytes} {d h : Byte} {c : Command} {data : Bytes}
    (hd : data.length ≤ 255) {s : State} {ts : List TxDraw} {ds : List RxDraw} (ht : s.txDraws = .accepted :: ts)
    (hs : s.rxDraws = (encodeFrame d h c data).map .byte ++ ds) :
    transact dev hostbyte cmd sent s =
      .ok data (s.exchanged (encodeFrame dev hostbyte cmd sent) (encodeFrame d h c data) ts ds) :=
  transact_frame hd ht hs

theorem transact_ok_registers {d h : Byte} {c : Command} {data rdata : Bytes} {s s' : State}
    (ht : transact d h c data s = .ok rdata s') : s'.registers = s.registers :=
  (transact_traffic (state?_ok ht)).registers

theorem transact_raised_registers {d h : Byte} {c : Command} {data : Bytes} {e : Err} {s s' : State}
    (ht : transact d h c data s = .raised e s') : s'.registers = s.registers :=
  (transact_traffic (state?_raised ht)).registers

/-- R162: a control command whose exchange fails raises that error. -/
theorem controlReply_of_raised {d h : Byte} {c : Command} {data : Bytes} {e : Err} {s s' : State}
    (ht : transact d h c data s = .raised e s') : controlReply d h c data s = .raised e s' := by
  rw [controlReply, ht]
  rfl

/-- R162: a control command takes a reply of exactly one byte. -/
theorem controlReply_of_one {d h b : Byte} {c : Command} {data : Bytes} {s s' : State}
    (ht : transact d h c data s = .ok [b] s') : controlReply d h c data s = .ok b s' := by
  rw [controlReply, ht]
  rfl

/-- R162: a reply of any other length is `BAD_REPLY_LEN`. -/
theorem controlReply_of_length {d h : Byte} {c : Command} {data rdata : Bytes} {s s' : State}
    (ht : transact d h c data s = .ok rdata s') (hl : rdata.length ≠ 1) :
    controlReply d h c data s = .raised .badReplyLen s' := by
  rw [controlReply, ht, Port.ok_bind]
  split
  · exact absurd rfl hl
  · rfl

/-- R162: an operation whose control command is answered with one byte goes on with it. -/
theorem conclude_of_one {d h b : Byte} {c : Command} {data : Bytes} {s s' : State} {f : Err → State → Result}
    {k : Byte → State → Result} (ht : transact d h c data s = .ok [b] s') :
    (controlReply d h c data s).conclude f k = k b s' := by
  rw [controlReply_of_one ht]
  rfl

/-- R162: an operation whose control command is answered with another number of bytes handles `BAD_REPLY_LEN`. -/
theorem conclude_of_length {d h : Byte} {c : Command} {data rdata : Bytes} {s s' : State} {f : Err → State → Result}
    {k : Byte → State → Result} (ht : transact d h c data s = .ok rdata s') (hl : rdata.length ≠ 1) :
    (controlReply d h c data s).conclude f k = f .badReplyLen s' := by
  rw [controlReply_of_length ht hl]
  rfl

/-- R162: an operation whose exchange fails handles that error. -/
theorem conclude_of_raised {d h : Byte} {c : Command} {data : Bytes} {e : Err} {s s' : State} {f : Err → State → Result}
    {k : Byte → State → Result} (ht : transact d h c data s = .raised e s') :
    (controlReply d h c data s).conclude f k = f e s' := by
  rw [controlReply_of_raised ht]
  rfl

/-- R175, R185: MASTER_SET raises what its control command raises. -/
theorem masterSet_of_raised {d h b : Byte} {e : Err} {s s' : State}
    (hc : controlReply d h Config.masterSet [b] s = .raised e s') : masterSet d h b s = .raised e s' := by
  rw [masterSet, hc]
  rfl

/-- R175, R185: the reply byte zero means success. -/
theorem masterSet_of_zero {d h b : Byte} {s s' : State} (ht : transact d h Config.masterSet [b] s = .ok [0x00] s') :
    masterSet d h b s = .ok () s' := by
  rw [masterSet, controlReply_of_one ht]
  rfl

/-- R175, R185: any other reply byte is a device error that carries it. -/
theorem masterSet_of_nonzero {d h b r : Byte} {s s' : State} (ht : transact d h Config.masterSet [b] s = .ok [r] s')
    (hr : r ≠ 0x00) : masterSet d h b s = .raised (.device (r.setWidth 16)) s' := by
  rw [masterSet, controlReply_of_one ht, Port.ok_bind]
  exact if_pos hr

/-! ### MASTER_SET: ASSIGN and RELEASE -/

/-- R175, R185: the answer `res` of an admitted MASTER_SET exchange from `s`, which sends `b` and on success goes to
`after`. -/
def MasterSetRule (res : Result) (s : State) (d h b : Byte) (after : Fsm) : Prop :=
  (∀ rdata s', transact d h Config.masterSet [b] s = .ok rdata s' → s'.registers = s.registers ∧
    (rdata = [0x00] →
      res = .next ({ s' with fsm := after }.answer { Response.base s with fsm := after.code })) ∧
    (∀ r, rdata = [r] → r ≠ 0x00 →
      res = .next (s'.answer { Response.base s with status := 0x30, devcode := r.setWidth 16 })) ∧
    (rdata.length ≠ 1 → res = .next (s'.answer (Response.error .badReplyLen s)))) ∧
  (∀ e s', transact d h Config.masterSet [b] s = .raised e s' →
    TransactError e ∧ s'.registers = s.registers ∧ res = .next (s'.answer (Response.error e s)))

theorem error_device (code : BitVec 16) (s : State) :
    Response.error (.device code) s = { Response.base s with status := 0x30, devcode := code } := by
  simp [Response.error]

/-- R84: only `FSM` of the snapshot changes with it. -/
theorem base_with_fsm {s s' : State} (h : s'.registers = s.registers) (f : Fsm) :
    Response.base { s' with fsm := f } = { Response.base s with fsm := f.code } := by
  obtain ⟨-, -, hhost, -⟩ := registers_eq h
  simp [Response.base, hhost]

theorem masterSetRule_conclude (s : State) (d h b : Byte) (after : Fsm) :
    MasterSetRule ((masterSet d h b s).conclude raise fun _ s => respondOk { s with fsm := after }) s d h b after := by
  refine ⟨fun rdata s' ht => ?_, fun e s' ht => ?_⟩
  · have hr := transact_ok_registers ht
    refine ⟨hr, ?_, ?_, fun hl => ?_⟩
    · rintro rfl
      rw [masterSet_of_zero ht, ← base_with_fsm hr]
      rfl
    · rintro r rfl hne
      rw [masterSet_of_nonzero ht hne, ← error_device, ← error_eq_of_registers hr]
      rfl
    · rw [masterSet_of_raised (controlReply_of_length ht hl), ← error_eq_of_registers hr]
      rfl
  · have hr := transact_raised_registers ht
    refine ⟨transact_raised ht, hr, ?_⟩
    rw [masterSet_of_raised (controlReply_of_raised ht), ← error_eq_of_registers hr]
    rfl

/-- R175: whatever has the meaning of ASSIGN follows its rule. -/
theorem assignRule {i : Instr} (hi : ∀ s, exec i s = assign s) : AssignRule i := by
  intro s hr
  rw [hi]
  refine ⟨fun ho => whenLegal_busy _ hr ho _,
    fun ho hf => whenLegal_fsmState hr ho (by simpa using hf) _, fun d h ho hf hd hh => ?_⟩
  rw [assign, whenLegal_go hr ho (by simp [hf]), withAddresses_some hd hh]
  obtain ⟨hok, hraised⟩ := masterSetRule_conclude s d h Config.assignByte .master
  refine ⟨fun rd rh rc ts ds hts hds => ?_, hok, hraised⟩
  exact (hok _ _ (transact_exchanged (by simp) hts hds)).2.1 rfl

/-- R185: whatever has the meaning of RELEASE follows its rule. -/
theorem releaseRule {i : Instr} (hi : ∀ s, exec i s = release s) : ReleaseRule i := by
  intro s hr
  rw [hi]
  refine ⟨fun ho => whenLegal_busy _ hr ho _,
    fun ho hf => whenLegal_fsmState hr ho (by simpa using hf) _, fun d h ho hf hd hh => ?_⟩
  rw [release, whenLegal_go hr ho (by simp [hf]), withAddresses_some hd hh]
  obtain ⟨hok, hraised⟩ := masterSetRule_conclude s d h Config.releaseByte .registered
  refine ⟨fun rd rh rc ts ds hts hds => ?_, hok, hraised⟩
  exact (hok _ _ (transact_exchanged (by simp) hts hds)).2.1 rfl

/-! ### MSTATUS and REGHOST -/

/-- R180: the end of MSTATUS on the status byte `b`. -/
def statusRead (p : Params) (b : Byte) (s : State) : Result :=
  respond (Response.masterStatus (masterFlags p.msBitMap b) s) { s with ms := some (masterFlags p.msBitMap b) }

theorem statusRead_eq (p : Params) (b : Byte) {s s' : State} (hr : s'.registers = s.registers) :
    statusRead p b s' = .next ({ s' with ms := some (masterFlags p.msBitMap b) }.answer { Response.base s with
      msf := masterFlags p.msBitMap b, warn := mswarn (masterFlags p.msBitMap b) s.fsm }) := by
  rw [statusRead, Response.masterStatus, base_eq_of_registers hr, (registers_eq hr).1, respond_eq]

theorem mstatus_admitted (p : Params) {s : State} {d h : Byte} (hr : s.fsm ≠ .registering) (ho : s.out = false)
    (hf : s.fsm = .registered ∨ s.fsm = .master) (hd : s.dev = some d) (hh : s.host = some h) :
    mstatus p s = (controlReply d h Config.masterGet [] s).conclude raise (statusRead p) := by
  rw [mstatus, whenLegal_go hr ho ((connected_iff _).2 hf), withAddresses_some hd hh]
  rfl

theorem not_connected_of_disconnected {f : Fsm} (h : f = .disconnected) : connected f = false := by
  rw [h]
  rfl

/-- R180: whatever has the meaning of MSTATUS follows its rule. -/
theorem mstatusRule {i : Instr} (hi : ∀ s, exec i s = mstatus Config.params s) : MstatusRule i := by
  intro s hr
  rw [hi]
  refine ⟨fun ho => whenLegal_busy _ hr ho _,
    fun ho hf => whenLegal_fsmState hr ho (not_connected_of_disconnected hf) _, fun d h ho hf hd hh => ?_⟩
  rw [mstatus_admitted _ hr ho hf hd hh]
  refine ⟨fun rd rh rc b ts ds hts hds => ?_, fun rdata s' ht => ?_, fun e s' ht => ?_⟩
  · exact (conclude_of_one (transact_exchanged (by simp) hts hds)).trans (statusRead_eq _ b rfl)
  · have hs := transact_ok_registers ht
    refine ⟨hs, ?_, fun hl => ?_⟩
    · rintro b rfl
      exact (conclude_of_one ht).trans (statusRead_eq _ b hs)
    · exact (conclude_of_length ht hl).trans (by rw [raise_eq, error_eq_of_registers hs])
  · have hs := transact_raised_registers ht
    exact ⟨transact_raised ht, hs, (conclude_of_raised ht).trans (by rw [raise_eq, error_eq_of_registers hs])⟩

/-- R170: the end of REGHOST on the reply byte `b`. -/
def registeredAs (b : Byte) (s : State) : Result := respondOk { s with host := some b, fsm := .registered }

theorem reghost_noDevice (p : Params) {id : Bytes} {s : State} (hid : id.length ≤ 255) (ho : s.out = false)
    (hf : s.fsm = .disconnected) (hd : s.dev = none) :
    reghost p id s = .next (s.answer (Response.error .noDevice s)) := by
  rw [reghost, withinLane_fits hid, whenLegal_go (by simp [hf]) ho (by simp [hf]), hd]
  rfl

theorem reghost_admitted (p : Params) {id : Bytes} {s : State} {d : Byte} (hid : id.length ≤ 255) (ho : s.out = false)
    (hf : s.fsm = .disconnected) (hd : s.dev = some d) :
    reghost p id s = (controlReply d p.regHostField Config.regHost id { s with fsm := .registering }).conclude
      registrationFailed registeredAs := by
  rw [reghost, withinLane_fits hid, whenLegal_go (by simp [hf]) ho (by simp [hf]), memRead_whole, withDev, hd]
  rfl

/-- R170: a failed registration leaves the registers it began with. -/
theorem registrationFailed_eq (e : Err) {s s' : State} (hf : s.fsm = .disconnected)
    (hr : s'.registers = ({ s with fsm := .registering } : State).registers) :
    registrationFailed e s' = .next ({ s' with fsm := .disconnected }.answer (Response.error e s)) := by
  obtain ⟨-, hdev, hhost, hout, hpay, hms⟩ := registers_eq hr
  have hs : ({ s' with fsm := .disconnected } : State).registers = s.registers := by
    simp [State.registers, hdev, hhost, hout, hpay, hms, hf]
  rw [registrationFailed, raise_eq, error_eq_of_registers hs]

/-- R170: whatever has the meaning of REGHOST of `id` follows its rule. -/
theorem reghostRule {i : Instr} {id : Bytes} (hi : ∀ s, exec i s = reghost Config.params id s) : ReghostRule i id := by
  intro s hid hr
  rw [hi]
  refine ⟨fun ho => (withinLane_fits hid _).trans (whenLegal_busy _ hr ho _),
    fun ho hf => (withinLane_fits hid _).trans (whenLegal_fsmState hr ho (by simpa using hf) _),
    fun ho hf hd => reghost_noDevice _ hid ho hf hd, fun d ho hf hd => ?_⟩
  rw [reghost_admitted _ hid ho hf hd]
  refine ⟨fun rd rh rc b ts ds hts hds => ?_, fun rdata s' ht => ?_, fun e s' ht => ?_⟩
  · exact (conclude_of_one (transact_exchanged (s := { s with fsm := .registering }) (by simp) hts hds)).trans rfl
  · have hs := transact_ok_registers ht
    refine ⟨hs, ?_, fun hl => ?_⟩
    · rintro b rfl
      exact conclude_of_one ht
    · exact (conclude_of_length ht hl).trans (registrationFailed_eq _ hf hs)
  · have hs := transact_raised_registers ht
    exact ⟨transact_raised ht, hs, (conclude_of_raised ht).trans (registrationFailed_eq _ hf hs)⟩

/-! ### SEND -/

/-- R57, R104: a transmission the channel leaves unfinished. -/
theorem txSend_timeout {d h : Byte} {c : Command} {data : Bytes} {s : State} {k : Nat} {ts : List TxDraw}
    (hk : k < (encodeFrame d h c data).length) (hs : s.txDraws = .timeout k :: ts) :
    txSend d h c data s = .raised .timeoutTx { s with
      txDraws := ts, trace := s.trace ++ [.tx (encodeFrame d h c data) k] } := by
  simp [txSend, txFrame, drawTx, hs, State.record, Nat.mod_eq_of_lt hk]

theorem txSend_raised_registers {d h : Byte} {c : Command} {data : Bytes} {e : Err} {s s' : State}
    (hs : txSend d h c data s = .raised e s') : s'.registers = s.registers := by
  obtain ⟨k, -, ht⟩ := txSend_traffic (state?_raised hs)
  exact ht.registers

theorem txSend_ok_registers {d h : Byte} {c : Command} {data : Bytes} {u : Unit} {s s' : State}
    (hs : txSend d h c data s = .ok u s') : s'.registers = s.registers := (txSend_ok hs).registers

/-- R135: the end of SEND. -/
def sent (s : State) : Result := respondOk { s with out := true, pay := none }

theorem send_admitted {c : Command} {data : Bytes} {s : State} (hl : data.length ≤ 255) (hr : s.fsm ≠ .registering)
    (ho : s.out = false) (hf : s.fsm = .registered ∨ s.fsm = .master) :
    send c data s = if isControl c then raise .cmd s
      else withAddresses s fun d h => (txSend d h c data s).conclude raise fun _ => sent := by
  rw [send, withinLane_fits hl, whenLegal_go hr ho ((connected_iff _).2 hf), memRead_whole]
  rfl

theorem sent_eq {s s' : State} (hr : s'.registers = s.registers) :
    sent s' = .next ({ s' with out := true, pay := none }.answer (Response.base s)) := by
  obtain ⟨hfsm, -, hhost, -⟩ := registers_eq hr
  simp [sent, Response.base, hfsm, hhost]

/-- R135: whatever has the meaning of SEND of `c` and `data` follows its rule. -/
theorem sendRule {i : Instr} {c : Command} {data : Bytes} (hi : ∀ s, exec i s = send c data s) : SendRule i c data := by
  intro s hl hr
  rw [hi]
  refine ⟨fun ho => (withinLane_fits hl _).trans (whenLegal_busy _ hr ho _),
    fun ho hf => (withinLane_fits hl _).trans (whenLegal_fsmState hr ho (not_connected_of_disconnected hf) _),
    fun ho hf => ?_⟩
  rw [send_admitted hl hr ho hf, ← isControl_iff]
  refine ⟨fun hc => if_pos hc, fun hc d h hd hh => ?_⟩
  rw [if_neg hc, withAddresses_some hd hh]
  refine ⟨fun ts hts => ?_, fun k ts hk hts => ?_, fun s' hs => ?_, fun e s' hs => ?_⟩
  · rw [txSend_accepted hts]
    exact sent_eq rfl
  · rw [txSend_timeout hk hts]
    rfl
  · rw [hs]
    exact sent_eq (txSend_ok_registers hs)
  · have hreg := txSend_raised_registers hs
    refine ⟨txSend_raised hs, hreg, ?_⟩
    rw [hs, ← error_eq_of_registers hreg]
    rfl

/-- Settles O28: a wire command has its sender's meaning, so it follows its sender's rule. -/
theorem wireCommandsFollowTheirSendersRules : Obligations.WireCommandsFollowTheirSendersRules :=
  ⟨fun _ => reghostRule fun _ => rfl, assignRule fun _ => rfl, mstatusRule fun _ => rfl, releaseRule fun _ => rfl,
    fun _ _ => ⟨sendRule fun _ => rfl, sendRule fun _ => rfl⟩, exec_operation⟩

end Sys2Proof.Machine

/-! PROOFS. The response and the frame of an operation (R84, R130; R76, R77, R240). -/

namespace Sys2Proof.Machine

/-! ### Error responses -/

/-- R85, R200: the class of an error's response. -/
theorem classCode_error (e : Err) (s : State) : (Response.error e s).classCode = e.cls.code := by
  have hstatus : (Response.error e s).status = e.status := by cases e <;> rfl
  rw [Response.classCode, hstatus, Err.status]
  exact BitVec.extractLsb'_append_eq_left

/-- R200: the class `OK` is no error's. -/
theorem status_error_ne_zero (e : Err) (s : State) : (Response.error e s).status ≠ 0 := by
  intro h
  have hcls : (0 : Byte).extractLsb' 4 4 = e.cls.code := h ▸ classCode_error e s
  cases e <;> simp [Err.cls, StatusClass.code] at hcls

/-- R84: what an error's response holds beside the snapshot. -/
theorem error_eq_base (e : Err) (s : State) : ∃ status devcode chkRx chkCalc,
    Response.error e s = { Response.base s with status, devcode, chkRx, chkCalc } ∧
      (e.cls ≠ .device → devcode = 0) ∧ (e.cls ≠ .checksum → chkRx = 0 ∧ chkCalc = 0) := by
  cases e with
  | checksum c k => exact ⟨_, 0, c, k, rfl, fun _ => rfl, fun h => absurd rfl h⟩
  | device code => exact ⟨_, code, 0, 0, rfl, fun h => absurd rfl h, fun _ => ⟨rfl, rfl⟩⟩
  | _ => exact ⟨_, 0, 0, 0, rfl, fun _ => rfl, fun _ => ⟨rfl, rfl⟩⟩

/-! ### One response per operation -/

/-- R84: the response `r` of the operation `j`, which left the registers `g`: the snapshot, and zero in every field the
table does not name for `j` and the class. -/
def Reports (j : Instr) (g : Registers) (r : Response) : Prop :=
  r.fsm = g.fsm.code ∧ r.hostV = g.host.isSome ∧ r.host = g.host.getD 0 ∧
  (r.classCode ≠ 0x3 → r.devcode = 0) ∧
  (r.classCode ≠ 0x1 → r.chkRx = 0 ∧ r.chkCalc = 0) ∧
  (r.msf ≠ 0 → j = .mstatus ∧ r.status = 0) ∧
  (j = .mstatus → r.status = 0 → g.ms = some r.msf) ∧
  (¬(j = .recv ∧ r.status = 0) → r.rdev = 0 ∧ r.rhost = 0 ∧ r.rcmd = 0) ∧
  (¬((j = .recv ∨ j = .check) ∧ r.status = 0) → r.plen = 0 ∧ r.payload = []) ∧
  (j = .recv → r.status = 0 → g.pay = some ⟨r.rdev, r.rhost, r.rcmd, r.payload⟩) ∧
  (j = .check → r.status = 0 → ∃ f, g.pay = some f ∧ r.payload = f.data) ∧
  r.plen = BitVec.ofNat 8 r.payload.length

theorem reports_error (j : Instr) (e : Err) (s : State) : Reports j s.registers (Response.error e s) := by
  have hcls := classCode_error e s
  have hstatus := status_error_ne_zero e s
  obtain ⟨status, devcode, chkRx, chkCalc, heq, hdev, hchk⟩ := error_eq_base e s
  have hdev' : (Response.error e s).classCode ≠ 0x3 → devcode = 0 := fun h =>
    hdev fun hc => h (by rw [hcls, hc]; rfl)
  have hchk' : (Response.error e s).classCode ≠ 0x1 → chkRx = 0 ∧ chkCalc = 0 := fun h =>
    hchk fun hc => h (by rw [hcls, hc]; rfl)
  rw [heq] at hstatus hdev' hchk' ⊢
  exact ⟨rfl, rfl, rfl, hdev', hchk', fun h => absurd rfl h, fun _ h => absurd h hstatus, fun _ => ⟨rfl, rfl, rfl⟩,
    fun _ => ⟨rfl, rfl⟩, fun _ h => absurd h hstatus, fun _ h => absurd h hstatus, rfl⟩

/-- R84: a successful operation that names no field but `WARN`. -/
theorem reports_base {j : Instr} (s : State) (warn : BitVec 4) (hm : j ≠ .mstatus) (hr : j ≠ .recv) (hc : j ≠ .check) :
    Reports j s.registers { Response.base s with warn } :=
  ⟨rfl, rfl, rfl, fun _ => rfl, fun _ => ⟨rfl, rfl⟩, fun h => absurd rfl h, fun h => absurd h hm,
    fun _ => ⟨rfl, rfl, rfl⟩, fun _ => ⟨rfl, rfl⟩, fun h => absurd h hr, fun h => absurd h hc, rfl⟩

theorem reports_masterStatus {s : State} {m : BitVec 4} (hm : s.ms = some m) :
    Reports .mstatus s.registers (Response.masterStatus m s) :=
  ⟨rfl, rfl, rfl, fun _ => rfl, fun _ => ⟨rfl, rfl⟩, fun _ => ⟨rfl, rfl⟩, fun _ _ => hm,
    fun _ => ⟨rfl, rfl, rfl⟩, fun _ => ⟨rfl, rfl⟩, nofun, nofun, rfl⟩

/-- R84, R140: the payload of a response is whole, and `PLEN` its length. -/
theorem withPayload_eq (r : Response) (data : Bytes) (h : r.payload = []) :
    r.withPayload data = { r with plen := BitVec.ofNat 8 data.length, payload := data } := by
  rw [Response.withPayload, h, memWrite_whole]

theorem reports_received {s : State} {f : Frame} (hf : s.pay = some f) :
    Reports .recv s.registers (Response.received f s) := by
  rw [Response.received, withPayload_eq _ _ rfl]
  exact ⟨rfl, rfl, rfl, fun _ => rfl, fun _ => ⟨rfl, rfl⟩, fun h => absurd rfl h, nofun, fun h => absurd ⟨rfl, rfl⟩ h,
    fun h => absurd ⟨.inl rfl, rfl⟩ h, fun _ _ => hf, nofun, rfl⟩

theorem reports_checked {s : State} {f : Frame} (hf : s.pay = some f) :
    Reports .check s.registers ((Response.base s).withPayload f.data) := by
  rw [withPayload_eq _ _ rfl]
  exact ⟨rfl, rfl, rfl, fun _ => rfl, fun _ => ⟨rfl, rfl⟩, fun h => absurd rfl h, nofun, fun _ => ⟨rfl, rfl, rfl⟩,
    fun h => absurd ⟨.inr rfl, rfl⟩ h, nofun, fun _ _ => ⟨f, hf, rfl⟩, rfl⟩

/-- R84: however an operation ends, its response holds what the table names. -/
theorem Ends.reports {j : Instr} {s : State} {g : Registers} {r : Response} (h : Ends j s g r) : Reports j g r := by
  have base (hm : j ≠ .mstatus) (hr : j ≠ .recv) (hc : j ≠ .check) : Reports j g (Response.base (s.withRegisters g)) :=
    reports_base (s.withRegisters g) 0 hm hr hc
  have error (e : Err) : Reports j g (Response.error e (s.withRegisters g)) := reports_error j e _
  cases j with
  | config d =>
    obtain ⟨-, -, -, rfl⟩ := h
    exact base nofun nofun nofun
  | reghost id =>
    obtain ⟨-, -, -, ⟨b, -, rfl⟩ | ⟨e, -, -, rfl⟩⟩ := h
    · exact base nofun nofun nofun
    · exact error e
  | assign | release =>
    obtain ⟨-, -, ⟨-, rfl⟩ | ⟨e, -, -, rfl⟩⟩ := h
    · exact base nofun nofun nofun
    · exact error e
  | mstatus =>
    obtain ⟨-, -, ⟨m, rfl, rfl⟩ | ⟨e, -, -, rfl⟩⟩ := h
    · exact reports_masterStatus (s := s.withRegisters _) rfl
    · exact error e
  | send c data =>
    obtain ⟨-, -, -, ⟨-, rfl⟩ | ⟨-, rfl⟩⟩ := h
    · exact base nofun nofun nofun
    · exact error .timeoutTx
  | recv =>
    obtain ⟨-, ⟨f, -, rfl, rfl⟩ | ⟨e, -, -, rfl⟩⟩ := h
    · exact reports_received (s := s.withRegisters _) rfl
    · exact error e
  | check =>
    obtain ⟨rfl, f, hf, ⟨code, rfl⟩ | rfl⟩ := h
    · exact error (.device code)
    · exact reports_checked (s := s.withRegisters _) hf
  | disconnect =>
    obtain ⟨-, -, failed, rfl⟩ := h
    exact reports_base (s.withRegisters g) _ nofun nofun nofun
  | _ => exact h.elim

/-- R84, R130, R232: unless a reset aborts it, an operation delivers one response, of the registers it leaves. -/
theorem Went.answered {j : Instr} {s t : State} (h : Went j s t) :
    AbortedByReset s t ∨ ∃ r, Answered s t r ∧ Reports j t.registers r := by
  obtain ⟨e, rfl, -⟩ | ⟨evs, -, ⟨g, r, he, hc⟩ | hc⟩ := h
  · exact .inr ⟨_, rfl, reports_error j e s⟩
  · exact .inr ⟨r, hc.responses, hc.registers ▸ he.reports⟩
  · exact .inl ⟨by simpa using hc.responses, hc.registers⟩

/-- Settles O32: each way an operation ends delivers one response, made from the registers it leaves. -/
theorem everyOperationAnswersOnce : Obligations.EveryOperationAnswersOnce := fun _ _ _ h => (exec_went h).answered

/-! ### The frame of an operation -/

/-- R111: a frame among an operation's port calls is one the operation may offer. -/
theorem Calls.offers {j : Instr} {s : State} {evs : List PortEvent} {f : Bytes} {k : Nat} (h : Calls j s evs)
    (hf : PortEvent.tx f k ∈ evs) : Offers j s f := by
  obtain ⟨f', k', rx, hoffers, -, rfl, hrx, -⟩ | ⟨-, hrx, -⟩ | rfl := h
  · obtain heq | hmem := List.mem_cons.1 hf
    · cases heq
      exact hoffers
    · cases hrx _ hmem
  · cases hrx _ hf
  · cases hf

/-- R76, R77: what an operation may offer is the frame of the wire command map, with the session's addresses. -/
theorem wireFrame_of_offers {i : Instr} {s : State} {f : Bytes} (h : Offers (operation i) s f) :
    ∃ d h c data, s.dev = some d ∧ wireFrame i s.host = some (h, c, data) ∧ f = encodeFrame d h c data := by
  unfold wireFrame
  generalize operation i = j at h
  cases j with
  | reghost id =>
    obtain ⟨d, hd, hf⟩ := h
    exact ⟨d, _, _, _, hd, rfl, hf⟩
  | assign | mstatus | release | disconnect | send c data =>
    obtain ⟨d, a, hd, ha, hf⟩ := h
    exact ⟨d, a, _, _, hd, by rw [ha]; rfl, hf⟩
  | _ => exact h.elim

/-- Settles O40: the port history grows by the operation's own calls, and those offer only its own frame. -/
theorem everyFrameFollowsTheWireCommandMap : Obligations.EveryFrameFollowsTheWireCommandMap := by
  intro i s t evs f k h htrace hf
  obtain ⟨evs', hcalls, htrace'⟩ := (exec_went h).trace
  obtain rfl : evs = evs' := List.append_cancel_left (htrace.symm.trans htrace')
  exact wireFrame_of_offers (hcalls.offers hf)

end Sys2Proof.Machine

/-! PROOFS. The master-status flags (R78), the assembler's lines (R87) and its pseudo-instructions (R88). -/

namespace Sys2Proof.Machine

/-! ### Flags -/

/-- R78: under the default map the flags are the low half of the status byte. -/
theorem masterFlags_standard (b : Byte) : masterFlags MsBitMap.standard b = b.extractLsb' 0 4 := by
  obtain ⟨h0, h1, h2, h3⟩ := nibble_bits (b.getLsbD 0) (b.getLsbD 1) (b.getLsbD 2) (b.getLsbD 3)
  apply BitVec.eq_of_getLsbD_eq
  intro i hi
  interval_cases i <;> simpa [masterFlags, MsBitMap.standard]

/-- Settles O29: the flags are the bits the mask was built from. -/
theorem masterFlagsComeFromTheirBits : Obligations.MasterFlagsComeFromTheirBits :=
  ⟨fun _ _ => nibble_bits _ _ _ _, masterFlags_standard⟩

/-! ### Lines -/

/-- R87: a byte list is its numbers as bytes, when each of them is one. -/
theorem mapM_asmByte (l : List Nat) :
    l.mapM asmByte = if ∀ b ∈ l, b ≤ 255 then some (l.map (BitVec.ofNat 8)) else none := by
  induction l with
  | nil => rfl
  | cons b l ih =>
    rw [List.mapM_cons, ih, asmByte]
    simp only [List.forall_mem_cons]
    by_cases hb : b ≤ 255
    · simp only [hb, true_and, ↓reduceIte]
      split <;> rfl
    · simp [hb]

/-- R87: a byte list is refused exactly when it is too long or holds a number out of bounds. -/
theorem asmBytes_eq (l : List Nat) :
    asmBytes l = if l.length ≤ 255 ∧ ∀ b ∈ l, b ≤ 255 then some (l.map (BitVec.ofNat 8)) else none := by
  rw [asmBytes, mapM_asmByte, ite_and]

/-- R80: a request word whose fields are in bounds, as a number. -/
theorem requestWord_ofNat (op : BitVec 4) {c l : Nat} (hc : c ≤ 0xFFFF) (hl : l ≤ 255) :
    requestWord op (BitVec.ofNat 16 c) (BitVec.ofNat 8 l) = BitVec.ofNat 32 (op.toNat * 2 ^ 28 + c * 256 + l) := by
  apply BitVec.eq_of_toNat_eq
  have := op.isLt
  simp only [requestWord_toNat, BitVec.toNat_ofNat]
  omega

/-- R87: an operand in bounds gives its instruction's request; another is refused. -/
theorem assemble_of_operations {l : AsmLine} {p : Prop} [Decidable p] {i : Instr} {it : Item}
    (hops : l.operations = if p then some [i] else none) (hit : p → i.encode = it) :
    l.assemble = if p then some [it] else none := by
  rw [AsmLine.assemble, hops]
  split
  · rw [← hit ‹p›]
    rfl
  · rfl

theorem assemble_config (dev : Nat) : AsmLine.assemble (.config dev) =
    if dev ≤ 255 then some [.request (BitVec.ofNat 32 (0x10000000 + dev)) []] else none := by
  refine assemble_of_operations (i := .config (BitVec.ofNat 8 dev)) ?_ fun h => ?_
  · simp only [AsmLine.operations, asmByte]
    split <;> rfl
  · exact congrArg (Item.request · []) (requestWord_ofNat 1 (Nat.zero_le _) h)

theorem assemble_reghost (id : List Nat) : AsmLine.assemble (.reghost id) =
    if id.length ≤ 255 ∧ ∀ b ∈ id, b ≤ 255 then
      some [.request (BitVec.ofNat 32 (0x20000000 + id.length)) (id.map (BitVec.ofNat 8))] else none := by
  refine assemble_of_operations (i := .reghost (id.map (BitVec.ofNat 8))) ?_ fun h => ?_
  · simp only [AsmLine.operations, asmBytes_eq]
    split <;> rfl
  · rw [Instr.encode, lenByte, List.length_map]
    exact congrArg (Item.request · _) (requestWord_ofNat 2 (Nat.zero_le _) h.1)

theorem assemble_send (cmd : Nat) (data : List Nat) : AsmLine.assemble (.send cmd data) =
    if cmd ≤ 0xFFFF ∧ data.length ≤ 255 ∧ ∀ b ∈ data, b ≤ 255 then
      some [.request (BitVec.ofNat 32 (0x60000000 + cmd * 256 + data.length)) (data.map (BitVec.ofNat 8))]
    else none := by
  refine assemble_of_operations (i := .send (BitVec.ofNat 16 cmd) (data.map (BitVec.ofNat 8))) ?_ fun h => ?_
  · simp only [AsmLine.operations, asmCommand, asmBytes_eq, ite_and (cmd ≤ 0xFFFF)]
    split
    · rw [Option.bind_some]
      split <;> rfl
    · rfl
  · rw [Instr.encode, lenByte, List.length_map]
    exact congrArg (Item.request · _) (requestWord_ofNat 6 h.1 h.2.1)

/-- Settles O48: a line's numbers are checked one by one, and those in bounds are the fields of its word. -/
theorem assemblerLinesGiveTheirWords : Obligations.AssemblerLinesGiveTheirWords :=
  ⟨assemble_config, assemble_reghost, assemble_send, rfl, rfl, rfl, rfl, rfl, rfl⟩

/-! ### Pseudo-instructions -/

/-- R88: the operations of a program's lines, in order, or none where one of them is refused. -/
def programOperations : List AsmLine → Option (List Instr)
  | [] => some []
  | l :: ls => l.operations.bind fun is => (programOperations ls).map fun js => is ++ js

/-- A program's requests are the encodings of its lines' operations. -/
theorem assembleProgram_eq (ls : List AsmLine) :
    assembleProgram ls = (programOperations ls).map fun is => is.map Instr.encode := by
  induction ls with
  | nil => rfl
  | cons l ls ih =>
    rw [assembleProgram, programOperations, AsmLine.assemble, ih]
    cases l.operations <;> cases programOperations ls <;> simp

/-- R88: two programs of the same operations assemble alike. -/
theorem assembleProgram_congr {ls ls' : List AsmLine} (h : programOperations ls = programOperations ls') :
    assembleProgram ls = assembleProgram ls' := by
  rw [assembleProgram_eq, assembleProgram_eq, h]

theorem programOperations_connect (dev : Nat) (id : List Nat) :
    programOperations [.connect dev id] = programOperations [.config dev, .reghost id] := by
  simp only [programOperations, AsmLine.operations]
  cases asmByte dev <;> cases asmBytes id <;> rfl

theorem programOperations_xfer (cmd : Nat) (data : List Nat) :
    programOperations [.xfer cmd data] = programOperations [.send cmd data, .recv] := by
  simp only [programOperations, AsmLine.operations]
  cases asmCommand cmd <;> cases asmBytes data <;> rfl

theorem programOperations_xferc (cmd : Nat) (data : List Nat) :
    programOperations [.xferc cmd data] = programOperations [.send cmd data, .recv, .check] := by
  simp only [programOperations, AsmLine.operations]
  cases asmCommand cmd <;> cases asmBytes data <;> rfl

/-- Settles O49: a pseudo-instruction has the operations of its expansion, and is refused with the same numbers. -/
theorem pseudoInstructionsExpand : Obligations.PseudoInstructionsExpand :=
  ⟨fun dev id => assembleProgram_congr (programOperations_connect dev id),
    fun cmd data => assembleProgram_congr (programOperations_xfer cmd data),
    fun cmd data => assembleProgram_congr (programOperations_xferc cmd data)⟩

end Sys2Proof.Machine

/-! PROOFS. The frame codec (R70 to R74, R100 to R102, R106, R107, R109): the checksum, the encoder, and the decoder on
each shape of byte sequence. -/

namespace Sys2Proof.Machine

/-! ### The checksum -/

/-- R100: reducing after each addition gives the reduced sum. -/
theorem foldl_add_eq (acc : Byte) (data : Bytes) :
    data.foldl (· + ·) acc = BitVec.ofNat 8 (acc.toNat + sumBytes data) := by
  induction data generalizing acc with
  | nil => simp
  | cons b bs ih => rw [List.foldl_cons, ih]; simp [← BitVec.toNat_inj, add_assoc]

/-- R9: a sum of bytes is at most 255 for each. -/
theorem sumBytes_le (bs : Bytes) : sumBytes bs ≤ 255 * bs.length := by
  induction bs with
  | nil => simp
  | cons b bs ih =>
    have := b.isLt
    simp only [sumBytes_cons, List.length_cons]
    omega

/-- One byte changed changes the sum by the difference of the two bytes. -/
theorem sumBytes_set {bs : Bytes} {i : Nat} {old : Byte} (hi : bs[i]? = some old) (b : Byte) :
    sumBytes (bs.set i b) + old.toNat = sumBytes bs + b.toNat := by
  induction bs generalizing i with
  | nil => simp at hi
  | cons x xs ih =>
    cases i with
    | zero =>
      obtain rfl : x = old := by simpa using hi
      simp only [List.set_cons_zero, sumBytes_cons]
      omega
    | succ i =>
      have := ih (i := i) (by simpa using hi)
      simp only [List.set_cons_succ, sumBytes_cons]
      omega

/-- R100: the checksum byte of a frame is the sum of the bytes between STX and it. -/
theorem checksum_toNat_eq_sumBytes (n d h m l : Byte) (data : Bytes) :
    (checksum n d h m l data).toNat = sumBytes (n :: d :: h :: m :: l :: data) % 256 := by
  rw [checksum_toNat]
  simp only [sumBytes_cons, Nat.add_assoc]

/-- Settles O1: every clause is a fact about the sum of the bytes the checksum covers. -/
theorem checksumIsTheModularSum : Obligations.ChecksumIsTheModularSum := by
  refine ⟨fun n d h m l data => ⟨checksum_toNat n d h m l data, ?_, fun hlen => ?_⟩, ⟨?_, by decide⟩, ?_⟩
  · rw [foldl_add_eq, ← BitVec.toNat_inj, checksum_toNat]
    simp
  · have hsum : (data.map BitVec.toNat).sum ≤ 255 * data.length := sumBytes_le data
    have := n.isLt; have := d.isLt; have := h.isLt; have := m.isLt; have := l.isLt
    omega
  · rw [List.map_replicate, List.sum_replicate]
    rfl
  · exact fun d h c data =>
      ⟨lenByte data :: d :: h :: Command.msb c :: Command.lsb c :: data, _, rfl,
        checksum_toNat_eq_sumBytes ..⟩

/-! ### The decoder on each shape of byte sequence -/

theorem decodeFrame_badStx {b : Byte} (hb : b ≠ Config.stx) (tail : Bytes) :
    decodeFrame (b :: tail) = .error .badStx := if_pos hb

/-- R102: a frame is as long as its LEN byte says, no less. -/
theorem decodeFrame_truncated {n d h m l : Byte} {body : Bytes} (hn : body.length < n.toNat + 1) :
    decodeFrame (Config.stx :: n :: d :: h :: m :: l :: body) = .error .truncated := if_pos hn

/-- R102: a frame is as long as its LEN byte says, no more. -/
theorem decodeFrame_overlength {n d h m l : Byte} {body : Bytes} (hn : n.toNat + 1 < body.length) :
    decodeFrame (Config.stx :: n :: d :: h :: m :: l :: body) = .error .overlength :=
  (if_neg (by omega)).trans (if_pos hn)

/-- R102: a frame has at least seven bytes. -/
theorem decodeFrame_short {tail : Bytes} (h : tail.length < 6) :
    decodeFrame (Config.stx :: tail) = .error .truncated := by
  match tail, h with
  | [], _ => rfl
  | [_], _ => rfl
  | [_, _], _ => rfl
  | [_, _, _], _ => rfl
  | [_, _, _, _], _ => rfl
  | [n, _, _, _, _], _ => exact decodeFrame_truncated (Nat.succ_pos _)

/-- R102: the checksum decides on a sequence of the right length. -/
theorem decodeFrame_whole {n d h m l c : Byte} {data : Bytes} (hn : data.length = n.toNat) :
    decodeFrame (Config.stx :: n :: d :: h :: m :: l :: (data ++ [c])) =
      if c ≠ checksum n d h m l data then .error (.checksum c (checksum n d h m l data))
      else .ok ⟨d, h, commandOfBytes m l, data⟩ := by
  simp [decodeFrame, ← hn]

theorem eq_cons_of_four_le_length {bs : Bytes} (hlen : 4 ≤ bs.length) :
    ∃ d h m l data, bs = d :: h :: m :: l :: data := by
  match bs, hlen with
  | d :: h :: m :: l :: data, _ => exact ⟨d, h, m, l, data, rfl⟩

/-- R70: CHK stands at offset `6 + n`. -/
theorem getElem?_chk (stx n d h m l c : Byte) (data : Bytes) :
    (stx :: n :: d :: h :: m :: l :: (data ++ [c]))[6 + data.length]? = some c := by
  rw [Nat.add_comm]
  simp

theorem commandOfBytes_eq_ofNat (m l : Byte) : commandOfBytes m l = BitVec.ofNat 16 (m.toNat * 256 + l.toNat) := by
  rw [← commandOfBytes_toNat, BitVec.ofNat_toNat, BitVec.setWidth_eq]

/-- Settles O3: the sequence is empty, wrong at its first byte, short of a header, or a header whose LEN byte is more,
less or exactly what follows it. -/
theorem decodeMakesItsChecksInOrder : Obligations.DecodeMakesItsChecksInOrder := by
  intro raw
  cases raw with
  | nil => rfl
  | cons b tail =>
    by_cases hb : b = Config.stx
    case neg => exact (decodeFrame_badStx hb tail).trans (if_pos hb).symm
    subst hb
    by_cases htail : tail.length < 6
    case pos =>
      rw [decodeFrame_short htail]
      simp [Config.stx, htail]
    obtain ⟨n, mid, rfl⟩ := List.exists_cons_of_length_pos (l := tail) (by omega)
    rw [List.length_cons] at htail
    obtain ⟨d, h, m, l, body, rfl⟩ := eq_cons_of_four_le_length (bs := mid) (by omega)
    obtain hlt | hgt | heq : body.length < n.toNat + 1 ∨ n.toNat + 1 < body.length ∨ body.length = n.toNat + 1 := by
      omega
    · have : body.length + 6 < 7 + n.toNat := by omega
      rw [decodeFrame_truncated hlt]
      simp [Config.stx, this]
    · have : 1 ≤ body.length := by omega
      have : ¬body.length + 6 < 7 + n.toNat := by omega
      have : 7 + n.toNat < body.length + 6 := by omega
      rw [decodeFrame_overlength hgt]
      simp [Config.stx, *]
    · obtain ⟨data, c, rfl⟩ := (List.eq_nil_or_concat' body).resolve_left (List.ne_nil_of_length_eq_add_one heq)
      have hn : data.length = n.toNat := by simpa using heq
      have hlen : (Config.stx :: n :: d :: h :: m :: l :: (data ++ [c])).length = 7 + n.toNat := by
        simp only [List.length_cons, heq]
        omega
      rw [decodeFrame_whole hn]
      simp only [hlen]
      simp [Config.stx, commandOfBytes_eq_ofNat, ← hn, getElem?_chk]

/-- Settles O4: the fields of an encoded frame have the right length and the right checksum. -/
theorem decodeOfEncodeGivesTheFields : Obligations.DecodeOfEncodeGivesTheFields := by
  intro d h c data hlen
  rw [encodeFrame_cons, decodeFrame_whole (lenByte_toNat hlen).symm]
  simp

/-! ### Changed bytes -/

/-- R107: a changed byte does not keep the sum. -/
theorem sumBytes_set_ne {bs : Bytes} {i : Nat} {old b : Byte} (hi : bs[i]? = some old) (hb : old ≠ b) :
    sumBytes (bs.set i b) % 256 ≠ sumBytes bs % 256 := by
  have hsum := sumBytes_set hi b
  have hne : old.toNat ≠ b.toNat := fun h => hb (BitVec.eq_of_toNat_eq h)
  have := old.isLt
  have := b.isLt
  omega

/-- R102: a sequence of the right length whose last byte is not the sum of the bytes from LEN on is a `CHECKSUM` error
that records two different bytes. -/
theorem decodeFrame_wrong_sum {n c : Byte} {mid : Bytes} (hn : mid.length = 4 + n.toNat)
    (hc : c.toNat ≠ sumBytes (n :: mid) % 256) :
    ∃ c' k, c' ≠ k ∧ decodeFrame (Config.stx :: n :: (mid ++ [c])) = .error (.checksum c' k) := by
  obtain ⟨d, h, m, l, data, rfl⟩ := eq_cons_of_four_le_length (bs := mid) (by omega)
  have hne : c ≠ checksum n d h m l data := by
    rintro rfl
    exact hc (checksum_toNat_eq_sumBytes ..)
  have hdata : data.length = n.toNat := by
    simp only [List.length_cons] at hn
    omega
  exact ⟨c, _, hne, (decodeFrame_whole hdata).trans (if_pos hne)⟩

/-- R107: one byte changed after LEN, CHK included, is a `CHECKSUM` error. -/
theorem decodeFrame_set_after_len {n c b : Byte} {mid : Bytes} {j : Nat} (hn : mid.length = 4 + n.toNat)
    (hc : c.toNat = sumBytes (n :: mid) % 256) (hj : j < (mid ++ [c]).length) (hb : (mid ++ [c])[j]? ≠ some b) :
    ∃ c' k, c' ≠ k ∧ decodeFrame (Config.stx :: n :: (mid ++ [c]).set j b) = .error (.checksum c' k) := by
  by_cases hmid : j < mid.length
  · rw [List.set_append_left _ _ hmid]
    refine decodeFrame_wrong_sum (by rwa [List.length_set]) ?_
    rw [hc]
    refine (sumBytes_set_ne (bs := n :: mid) (i := j + 1) (List.getElem?_eq_getElem (by simpa using hmid)) ?_).symm
    simpa [List.getElem?_append_left hmid, List.getElem?_eq_getElem hmid] using hb
  · obtain rfl : j = mid.length := by
      simp only [List.length_append, List.length_singleton] at hj
      omega
    have hset : (mid ++ [c]).set mid.length b = mid ++ [b] := by simp
    rw [hset]
    refine decodeFrame_wrong_sum hn fun h => hb ?_
    simpa [BitVec.toNat_inj] using hc.trans h.symm

/-- Settles O5: STX, LEN, and every byte the checksum covers or is. -/
theorem oneChangedByteIsDetected : Obligations.OneChangedByteIsDetected := by
  intro d h c data i b hlen f hi hb
  have hn := lenByte_toNat hlen
  refine ⟨?_, ?_, ?_, fun h2 => ?_⟩
  · rintro rfl
    exact decodeFrame_badStx (fun hstx => hb (congrArg some hstx.symm)) _
  · rintro rfl hlt
    exact decodeFrame_truncated (by simpa using hlt)
  · rintro rfl hlt
    exact decodeFrame_overlength (by simpa using hlt)
  · obtain ⟨j, rfl⟩ := Nat.exists_eq_add_of_le' h2
    exact decodeFrame_set_after_len (mid := d :: h :: Command.msb c :: Command.lsb c :: data)
      (by simp only [List.length_cons]; omega) (checksum_toNat_eq_sumBytes ..) (Nat.lt_of_add_lt_add_right hi) hb

/-- R109: two frames whose summed bytes have the same sum mod 256 have the same checksum. -/
theorem checksum_congr {n d h m l n' d' h' m' l' : Byte} {data data' : Bytes}
    (hs : sumBytes (n :: d :: h :: m :: l :: data) % 256 = sumBytes (n' :: d' :: h' :: m' :: l' :: data') % 256) :
    checksum n d h m l data = checksum n' d' h' m' l' data' := by
  rw [← BitVec.toNat_inj, checksum_toNat_eq_sumBytes, checksum_toNat_eq_sumBytes, hs]

theorem sumBytes_perm {as bs : Bytes} (h : as.Perm bs) : sumBytes as = sumBytes bs := (h.map _).sum_eq

/-- A frame without its checksum. -/
theorem encodeFrame_dropLast (d h : Byte) (c : Command) (data : Bytes) : (encodeFrame d h c data).dropLast =
    Config.stx :: lenByte data :: d :: h :: Command.msb c :: Command.lsb c :: data :=
  List.dropLast_concat

/-- The checksum of a frame. -/
theorem encodeFrame_drop (d h : Byte) (c : Command) (data : Bytes) : (encodeFrame d h c data).drop (6 + data.length) =
    [checksum (lenByte data) d h (Command.msb c) (Command.lsb c) data] :=
  List.drop_left' (by simp; omega)

/-- Settles O6: the kept CHK is the checksum of the changed frame, and a permutation keeps a sum. -/
theorem sumPreservingChangesAreAccepted : Obligations.SumPreservingChangesAreAccepted := by
  refine ⟨fun d d' h h' c c' data data' hlen hmax hsum => ?_, fun _ _ _ _ _ _ _ _ _ _ _ _ hperm =>
    checksum_congr (congrArg (· % 256) (sumBytes_perm hperm))⟩
  have hn : lenByte data = lenByte data' := by rw [lenByte, lenByte, hlen]
  have hchk : checksum (lenByte data) d h (Command.msb c) (Command.lsb c) data =
      checksum (lenByte data') d' h' (Command.msb c') (Command.lsb c') data' := by
    refine checksum_congr ?_
    change (d.toNat + h.toNat + (Command.msb c).toNat + (Command.lsb c).toNat + sumBytes data) % 256 =
      (d'.toNat + h'.toNat + (Command.msb c').toNat + (Command.lsb c').toNat + sumBytes data') % 256 at hsum
    simp only [sumBytes_cons, hn]
    omega
  rw [encodeFrame_dropLast, encodeFrame_drop, hchk]
  exact decodeOfEncodeGivesTheFields d' h' c' data' (hlen ▸ hmax)

/-! ### Offsets -/

/-- Settles O2: the layout of R70, read off by index. -/
theorem frameFieldsStandAtTheirOffsets : Obligations.FrameFieldsStandAtTheirOffsets := by
  intro d h c data hlen f
  refine ⟨encodeFrame_length d h c data, rfl, rfl, fun b hb => ?_, rfl, rfl, rfl, rfl, fun i hi => ?_,
    getElem?_chk ..⟩
  · obtain rfl : lenByte data = b := Option.some.inj hb
    exact lenByte_toNat hlen
  · simp only [f, encodeFrame_cons, Nat.add_comm 6]
    simp [List.getElem?_append_left hi]

end Sys2Proof.Machine

/-! PROOFS. The receive and the transmit procedure (R103 to R105, R108): the bytes a receive takes are what the decoder
decides on, a receive that starves is `TRUNCATED`, and a transmission offers one frame. -/

namespace Sys2Proof.Machine

/-! ### A receive and the decoder -/

/-- `p`, run from `s`, only receives: it ends in a timeout, or `Q` relates the bytes it took to its value or error. -/
def Port.Takes {α : Type} (p : Port α) (s : State) (Q : Bytes → Except Err α → Prop) : Prop :=
  match p with
  | .ok a s' => ∃ bs : Bytes, s'.trace = s.trace ++ bs.map .rx ∧ Q bs (.ok a)
  | .raised e s' => (∃ evs, s'.trace = s.trace ++ evs ++ [.rxTimeout]) ∨
      ∃ bs : Bytes, s'.trace = s.trace ++ bs.map .rx ∧ Q bs (.error e)
  | .aborted _ => True
  | .stuck => True

/-- What was taken before counts for what is taken after it. -/
theorem Port.Takes.after {α : Type} {p : Port α} {s s' : State} {Q : Bytes → Except Err α → Prop} {bs : Bytes}
    (ht : s'.trace = s.trace ++ bs.map .rx) (h : p.Takes s' fun cs r => Q (bs ++ cs) r) : p.Takes s Q := by
  have happ (cs : Bytes) : s'.trace ++ cs.map .rx = s.trace ++ (bs ++ cs).map .rx := by
    rw [ht, List.map_append, List.append_assoc]
  cases p with
  | ok a t =>
    obtain ⟨cs, htr, hq⟩ := h
    exact ⟨bs ++ cs, htr.trans (happ cs), hq⟩
  | raised e t =>
    obtain ⟨evs, htr⟩ | ⟨cs, htr, hq⟩ := h
    · exact .inl ⟨bs.map .rx ++ evs, by rw [htr, ht, List.append_assoc s.trace]⟩
    · exact .inr ⟨bs ++ cs, htr.trans (happ cs), hq⟩
  | aborted t => trivial
  | stuck => trivial

/-- One `RxByte` call takes a byte, or ends the procedure before it. -/
theorem rxByte_bind_takes {α : Type} {e : Err} {s : State} {k : Byte → State → Port α}
    {Q : Bytes → Except Err α → Prop} (hk : ∀ b t, (k b t).Takes t fun bs r => Q (b :: bs) r) :
    ((rxByte e s).bind k).Takes s Q := by
  have hd := (drawRx_traffic s).trace
  unfold rxByte
  split <;> rename_i s' heq <;> rw [heq, List.append_nil] at hd
  · exact .after (bs := [_]) (by rw [record_trace, hd]; rfl) (hk _ _)
  · exact .inl ⟨[], by rw [record_trace, hd, List.append_nil]⟩
  · trivial
  · trivial
  · trivial

theorem Port.bind_assoc {α β γ : Type} (p : Port α) (k : α → State → Port β) (k' : β → State → Port γ) :
    (p.bind k).bind k' = p.bind fun a s => (k a s).bind k' := by
  cases p <;> rfl

/-- R103: the next of `n + 1` bytes. -/
theorem rxBytes_succ_bind {α : Type} (n : Nat) (s : State) (k : Bytes → State → Port α) :
    (rxBytes (n + 1) s).bind k =
      (rxByte .truncated s).bind fun b s => (rxBytes n s).bind fun bs s => k (b :: bs) s := by
  simp only [rxBytes, Port.bind_assoc, Port.ok_bind]

/-- R103: the data bytes of a frame are as many as were asked for. -/
theorem rxBytes_bind_takes {α : Type} {n : Nat} {s : State} {k : Bytes → State → Port α}
    {Q : Bytes → Except Err α → Prop}
    (hk : ∀ data t, data.length = n → (k data t).Takes t fun bs r => Q (data ++ bs) r) :
    ((rxBytes n s).bind k).Takes s Q := by
  induction n generalizing s k Q with
  | zero => exact hk [] s rfl
  | succ n ih =>
    rw [rxBytes_succ_bind]
    exact rxByte_bind_takes fun b t => ih fun data t hlen => hk (b :: data) t (congrArg (· + 1) hlen)

/-- R105: whatever a receive took without a timeout decodes to its result. -/
theorem rxFrame_takes (s : State) : (rxFrame s).Takes s fun bs r => decodeFrame bs = r := by
  refine rxByte_bind_takes fun stx s => ?_
  split
  case isTrue hstx => exact .inr ⟨[], (List.append_nil _).symm, decodeFrame_badStx hstx []⟩
  case isFalse hstx =>
    obtain rfl : stx = Config.stx := not_not.1 hstx
    refine rxByte_bind_takes fun n s => rxByte_bind_takes fun d s => rxByte_bind_takes fun h s =>
      rxByte_bind_takes fun m s => rxByte_bind_takes fun l s => rxBytes_bind_takes fun data s hn =>
      rxByte_bind_takes fun c s => ?_
    unfold verify
    split
    case isTrue hc => exact .inr ⟨[], (List.append_nil _).symm, (decodeFrame_whole hn).trans (if_pos hc)⟩
    case isFalse hc => exact ⟨[], (List.append_nil _).symm, (decodeFrame_whole hn).trans (if_neg hc)⟩

/-- No history of taken bytes ends in a timeout. -/
theorem rxTimeout_ne_map_rx {tr evs : List PortEvent} {bs : Bytes} :
    tr ++ evs ++ [.rxTimeout] ≠ tr ++ bs.map .rx := by
  intro h
  rw [List.append_assoc, List.append_cancel_left_eq] at h
  have hmem : PortEvent.rxTimeout ∈ bs.map .rx := h ▸ by simp
  simp at hmem

/-- R102: decoding touches no port, so it meets no timeout. -/
theorem decodeFrame_ne_timeout (raw : Bytes) :
    decodeFrame raw ≠ .error .timeoutRx ∧ decodeFrame raw ≠ .error .timeoutTx := by
  rw [decodeMakesItsChecksInOrder raw]
  split_ifs <;> simp

/-- Settles O7: a receive's result is the decoder's, and each side's errors exclude the other's own. -/
theorem receiverAgreesWithDecode : Obligations.ReceiverAgreesWithDecode := by
  refine ⟨fun s s' f h => ?_, fun s s' e bs h htr => ?_, fun s s' h => ?_, decodeFrame_ne_timeout⟩
  · have ht := rxFrame_takes s
    rwa [h] at ht
  · have ht := rxFrame_takes s
    rw [h] at ht
    obtain ⟨evs, htr'⟩ | ⟨cs, htr', hdec⟩ := ht
    · exact absurd (htr'.symm.trans htr) rxTimeout_ne_map_rx
    · have hmap := List.append_cancel_left (htr'.symm.trans htr)
      rwa [List.map_injective_iff.2 (fun _ _ => PortEvent.rx.inj) hmap] at hdec
  · simpa [ReceiveError] using rxFrame_raised h

/-! ### A receive that starves -/

/-- R103: `k`, which still needs the bytes `need`, raises `TRUNCATED` if a timeout comes before all of them. -/
def Starves {α : Type} (k : State → Port α) (need : Bytes) : Prop :=
  ∀ i < need.length, ∀ (s : State) (ds : List RxDraw), s.rxDraws = (need.take i).map .byte ++ .timeout :: ds →
    k s = .raised .truncated ((s.took (need.take i) ds).record .rxTimeout)

theorem starves_nil {α : Type} (k : State → Port α) : Starves k [] := fun _ hi => absurd hi (Nat.not_lt_zero _)

theorem Starves.rxByte_bind {α : Type} {k : Byte → State → Port α} {b : Byte} {need : Bytes}
    (hk : Starves (k b) need) : Starves (fun s => (rxByte .truncated s).bind k) (b :: need) := by
  intro i hi s ds hs
  change (rxByte .truncated s).bind k = _
  cases i with
  | zero =>
    rw [rxByte_timeout .truncated s ds hs]
    simp [Port.bind, State.took]
  | succ i =>
    rw [rxByte_took .truncated hs, Port.ok_bind, hk i (Nat.lt_of_succ_lt_succ hi) _ ds rfl]
    simp

theorem Starves.rxBytes_bind {α : Type} {k : Bytes → State → Port α} {data need : Bytes}
    (hk : Starves (k data) need) : Starves (fun s => (rxBytes data.length s).bind k) (data ++ need) := by
  induction data generalizing k with
  | nil => exact hk
  | cons b bs ih =>
    simp only [List.length_cons, rxBytes_succ_bind]
    exact .rxByte_bind (ih (k := fun bs => k (b :: bs)) hk)

/-- R103: after STX a receive needs as many bytes as the LEN byte says. -/
theorem rxBody_starves {n : Byte} {data : Bytes} (hn : data.length = n.toNat) (d h m l c : Byte) :
    Starves rxBody (n :: d :: h :: m :: l :: (data ++ [c])) := by
  refine .rxByte_bind <| .rxByte_bind <| .rxByte_bind <| .rxByte_bind <| .rxByte_bind ?_
  rw [← hn]
  exact .rxBytes_bind <| .rxByte_bind <| starves_nil _

/-- R103: a receive that met STX goes on with the rest of the frame. -/
theorem rxFrame_of_stx {s : State} {ds : List RxDraw} (hs : s.rxDraws = .byte Config.stx :: ds) :
    rxFrame s = rxBody (s.took [Config.stx] ds) := by
  rw [rxFrame, rxByte_took _ hs, Port.ok_bind]
  exact if_neg (not_not.2 rfl)

/-- R103: a timeout inside a frame is `TRUNCATED`. -/
theorem rxFrame_cut {n d h m l c : Byte} {data : Bytes} (hn : data.length = n.toNat) {s : State} {ds : List RxDraw}
    {j : Nat} (hj : j < (n :: d :: h :: m :: l :: (data ++ [c])).length)
    (hs : s.rxDraws = (Config.stx :: (n :: d :: h :: m :: l :: (data ++ [c])).take j).map .byte ++ .timeout :: ds) :
    rxFrame s = .raised .truncated
      ((s.took (Config.stx :: (n :: d :: h :: m :: l :: (data ++ [c])).take j) ds).record .rxTimeout) := by
  rw [rxFrame_of_stx hs, rxBody_starves hn d h m l c j hj _ ds rfl, took_took]
  rfl

theorem rxFrame_badStx {s : State} {b : Byte} {ds : List RxDraw} (hb : b ≠ Config.stx)
    (hs : s.rxDraws = .byte b :: ds) : rxFrame s = .raised .badStx (s.took [b] ds) := by
  rw [rxFrame, rxByte_took _ hs, Port.ok_bind]
  exact if_pos hb

/-- Settles O9: no byte, a wrong first byte, a frame cut short, or a whole frame. -/
theorem receiveTakesOneFrame : Obligations.ReceiveTakesOneFrame := by
  intro s ds
  refine ⟨fun hs => ?_, fun b hb hs => rxFrame_badStx hb hs, fun n d h m l c data hn =>
    ⟨fun j hpos hj hs => ?_, fun hs => ?_⟩⟩
  · rw [rxFrame, rxByte_timeout _ s ds hs]
    rfl
  · cases j with
    | zero => exact absurd hpos (Nat.lt_irrefl 0)
    | succ j => exact rxFrame_cut hn (Nat.lt_of_succ_lt_succ hj) hs
  · rw [rxFrame_took hn hs, verify, commandOfBytes_eq_ofNat]
    rfl

/-! ### A corrupted LEN byte -/

/-- R108: with LEN zero, a frame whose first data byte is the checksum of the frame without data begins with that
frame. -/
theorem encodeFrame_set_len_zero (d h : Byte) (c : Command) (rest : Bytes) :
    let data := checksum 0 d h (Command.msb c) (Command.lsb c) [] :: rest
    (encodeFrame d h c data).set 1 0 = encodeFrame d h c [] ++ (encodeFrame d h c data).drop 7 := rfl

/-- Settles O8: the receiver takes a LEN of zero and the first data byte for a whole frame. -/
theorem corruptedLengthCanBeAccepted : Obligations.CorruptedLengthCanBeAccepted := by
  refine ⟨fun s d h c rest ds _ => ?_, fun s ds => ⟨by decide, fun hs => ?_⟩⟩
  · intro k hs
    have hset : (encodeFrame d h c (k :: rest)).set 1 0 = _ := encodeFrame_set_len_zero d h c rest
    rw [hset, List.map_append, List.append_assoc] at hs
    refine ⟨_, (encodeFrame d h c (k :: rest)).drop 7, rxFrame_frame (data := []) (Nat.zero_le 255) hs, ?_, rfl,
      (List.take_append_drop 7 _).symm⟩
    rw [List.length_drop, encodeFrame_length, Nat.add_sub_cancel_left, List.length_cons]
  · have hshort : encodeFrame 0xC8 0x01 0x0101 [] = [0xBB, 0x00, 0xC8, 0x01, 0x01, 0x01, 0xCB] := by decide
    exact ⟨_, rxFrame_frame (data := []) (ds := .byte 0x97 :: ds) (Nat.zero_le 255) (by rw [hs, hshort]; rfl), rfl⟩

/-! ### A transmission -/

theorem record_tx_txStream (s : State) (f : Bytes) (k : Nat) :
    (s.record (.tx f k)).txStream = s.txStream ++ f.take k := by
  simp [State.txStream, PortEvent.sent]

/-- Settles O10: both answers of the call, and the stream they extend. -/
theorem transmitOffersOneFrame : Obligations.TransmitOffersOneFrame := by
  intro s d h c data ts f
  have hall : f.take f.length = f := List.take_length
  exact ⟨fun hs => ⟨_, txSend_accepted hs, rfl, (record_tx_txStream s f f.length).trans (by rw [hall]), rfl⟩,
    fun k hk hs => ⟨_, txSend_timeout hk hs, rfl, record_tx_txStream s f k, rfl⟩, by decide⟩

end Sys2Proof.Machine

/-! PROOFS. The facade operations CONFIG, SEND, RECV and CHECK (R131, R135, R140, R145), with the words they are
requested by (R82). -/

namespace Sys2Proof.Machine

/-! ### The instructions and their words -/

theorem exec_config (dev : Byte) (s : State) : exec (.config dev) s = config dev s := rfl

theorem exec_recv (s : State) : exec .recv s = recv s := rfl

theorem exec_check (s : State) : exec .check s = check Config.params s := rfl

/-- R80: a request word as the number its fields give. -/
theorem requestWord_eq_ofNat (op : BitVec 4) (c : Command) (l : Byte) :
    requestWord op c l = BitVec.ofNat 32 (op.toNat * 2 ^ 28 + c.toNat * 2 ^ 8 + l.toNat) := by
  rw [← requestWord_toNat, BitVec.ofNat_toNat, BitVec.setWidth_eq]

/-! ### SEND -/

/-- R82: SEND's word as a number. -/
theorem encode_send_ofNat (c : Command) {data : Bytes} (hl : data.length ≤ 255) : (Instr.send c data).encode =
    .request (BitVec.ofNat 32 (0x60000000 + c.toNat * 256 + data.length)) data := by
  rw [Instr.encode, requestWord_eq_ofNat, lenByte_toNat hl]
  rfl

/-- Settles O20: the rule is the one SEND shares with its wire commands, and its word is its encoding. -/
theorem sendFollowsItsRule : Obligations.SendFollowsItsRule := by
  refine fun c data => ⟨sendRule fun _ => rfl, fun hl => ?_⟩
  rw [← encode_send_ofNat c hl]
  exact decode_encode ((dataFits_iff data).2 hl)

/-! ### RECV -/

/-- R84: an error response reads the registers through the snapshot only. -/
theorem error_eq_of_base {s t : State} (h : Response.base s = Response.base t) (e : Err) :
    Response.error e s = Response.error e t := by
  simp only [Response.error, h]

/-- R140: a receive from the state with the request retired leaves the snapshot of the response as it was. -/
theorem base_of_retired_rxFrame {s s' : State}
    (h : (rxFrame { s with out := false, pay := none }).state? = some s') : Response.base s' = Response.base s := by
  obtain ⟨evs, ht, -⟩ := rxFrame_traffic h
  exact (base_eq_of_registers ht.registers).trans rfl

/-- R140: a receive from the state with the request retired does not bring the request or a payload back. -/
theorem retired_of_rxFrame {s s' : State}
    (h : (rxFrame { s with out := false, pay := none }).state? = some s') : s'.out = false ∧ s'.pay = none := by
  obtain ⟨evs, ht, -⟩ := rxFrame_traffic h
  obtain ⟨-, -, -, hout, hpay, -⟩ := registers_eq ht.registers
  exact ⟨hout, hpay⟩

/-- R140: the response of an accepted frame, with its payload whole. -/
theorem received_eq (f : Frame) {s s' : State} (h : Response.base s' = Response.base s) :
    Response.received f s' = { Response.base s with
      rdev := f.device, rhost := f.host, rcmd := f.command
      plen := BitVec.ofNat 8 f.data.length, payload := f.data } := by
  rw [Response.received, withPayload_eq _ _ rfl, h]

theorem recv_notOutstanding {s : State} (hr : s.fsm ≠ .registering) (ho : s.out = false) :
    exec .recv s = .next (s.answer (Response.error .notOutstanding s)) := by
  rw [exec_recv, recv, atRest_of_ne hr, ho]
  rfl

/-- R140: with a request outstanding, RECV retires it and receives one frame. -/
theorem recv_outstanding {s : State} (hr : s.fsm ≠ .registering) (ho : s.out = true) :
    exec .recv s = (rxFrame { s with out := false, pay := none }).conclude raise fun f s =>
      respond (Response.received f s) { s with pay := some f } := by
  rw [exec_recv, recv, atRest_of_ne hr, if_pos ho]

/-- R140: RECV accepts whatever frame the receive gives. -/
theorem recv_of_ok {s s' : State} {f : Frame} (hr : s.fsm ≠ .registering) (ho : s.out = true)
    (hf : rxFrame { s with out := false, pay := none } = .ok f s') :
    exec .recv s = .next ({ s' with pay := some f }.answer { Response.base s with
      rdev := f.device, rhost := f.host, rcmd := f.command
      plen := BitVec.ofNat 8 f.data.length, payload := f.data }) := by
  rw [recv_outstanding hr ho, hf, ← received_eq f (base_of_retired_rxFrame (state?_ok hf))]
  rfl

/-- R140: RECV reports whatever error the receive raises. -/
theorem recv_of_raised {s s' : State} {e : Err} (hr : s.fsm ≠ .registering) (ho : s.out = true)
    (hf : rxFrame { s with out := false, pay := none } = .raised e s') :
    exec .recv s = .next (s'.answer (Response.error e s)) := by
  rw [recv_outstanding hr ho, hf, ← error_eq_of_base (base_of_retired_rxFrame (state?_raised hf))]
  rfl

/-- Settles O21: a scripted frame is one the receive gives, and a receive touches neither `OUT` nor `PAY_V`. -/
theorem recvFollowsItsRule : Obligations.RecvFollowsItsRule := by
  refine ⟨decode_encode (i := .recv) rfl, fun s hr => ⟨recv_notOutstanding hr, fun ho => ⟨?_, ?_, ?_⟩⟩⟩
  · intro d h c data ds hl hs
    exact recv_of_ok hr ho (rxFrame_frame (s := { s with out := false, pay := none }) hl hs)
  · exact fun f s' => recv_of_ok hr ho
  · intro e s' hf
    obtain ⟨hout, hpay⟩ := retired_of_rxFrame (state?_raised hf)
    exact ⟨rxFrame_raised hf, hout, hpay, recv_of_raised hr ho hf⟩

/-! ### CONFIG -/

/-- R82: CONFIG's word as a number. -/
theorem encode_config_ofNat (dev : Byte) :
    (Instr.config dev).encode = .request (BitVec.ofNat 32 (0x10000000 + dev.toNat)) [] := by
  rw [Instr.encode, requestWord_eq_ofNat]
  rfl

/-- R131: CONFIG, once admitted, writes `DEV`, which is not in the snapshot. -/
theorem config_admitted (dev : Byte) {s : State} (ho : s.out = false) (hf : s.fsm = .disconnected) :
    config dev s = .next ({ s with dev := some dev }.answer (Response.base s)) := by
  rw [config, whenLegal_go (by simp [hf]) ho (by simp [hf])]
  rfl

/-- Settles O19: CONFIG's word is its encoding, and its admission is that of R203. -/
theorem configFollowsItsRule : Obligations.ConfigFollowsItsRule := by
  refine ⟨fun dev => ?_, fun s dev hr => ?_⟩
  · rw [← encode_config_ofNat]
    exact decode_encode rfl
  · rw [exec_config]
    exact ⟨fun ho => whenLegal_busy _ hr ho _, fun ho hf => whenLegal_fsmState hr ho (by simpa using hf) _,
      config_admitted dev⟩

/-! ### CHECK -/

theorem check_noPayload (p : Params) {s : State} (hr : s.fsm ≠ .registering) (hp : s.pay = none) :
    check p s = .next (s.answer (Response.error .noPayload s)) := by
  rw [check, atRest_of_ne hr, hp]
  rfl

/-- R145: a payload without a code passes unchanged. -/
theorem check_clean (p : Params) {s : State} {f : Frame} (hr : s.fsm ≠ .registering) (hp : s.pay = some f)
    (hcode : p.deverr f.data = none) : check p s =
      .next (s.answer { Response.base s with plen := BitVec.ofNat 8 f.data.length, payload := f.data }) := by
  rw [check, atRest_of_ne hr, hp, ← withPayload_eq _ _ rfl]
  simp [deviceError, hcode]

/-- R145: a code in the payload is reported, zero-extended to 16 bits. -/
theorem check_deviceError (p : Params) {s : State} {f : Frame} {code : BitVec (p.devcodeWidthPred.val + 1)}
    (hr : s.fsm ≠ .registering) (hp : s.pay = some f) (hcode : p.deverr f.data = some code) : check p s =
      .next (s.answer { Response.base s with status := 0x30, devcode := code.setWidth 16 }) := by
  rw [check, atRest_of_ne hr, hp, ← error_device]
  simp [deviceError, hcode]

/-- Settles O22: no payload, one without a code, or one with a code. -/
theorem checkFollowsItsRule : Obligations.CheckFollowsItsRule := by
  refine ⟨decode_encode (i := .check) rfl, fun s hr => ⟨check_noPayload _ hr, fun f hp => ?_⟩⟩
  rw [exec_check]
  cases hcode : Config.params.deverr f.data with
  | none => exact check_clean _ hr hp hcode
  | some code => exact check_deviceError _ hr hp hcode

end Sys2Proof.Machine

/-! PROOFS. The arbitration operations (R170 to R190), the warning mask (R181), R161's admission table, and the moves of
`FSM` (R160, R195). -/

namespace Sys2Proof.Machine

/-! ### REGHOST, ASSIGN, MSTATUS and RELEASE -/

/-- R82: REGHOST's word as a number. -/
theorem encode_reghost_ofNat {id : Bytes} (hl : id.length ≤ 255) :
    (Instr.reghost id).encode = .request (BitVec.ofNat 32 (0x20000000 + id.length)) id := by
  rw [Instr.encode, requestWord_eq_ofNat, lenByte_toNat hl]
  rfl

/-- Settles O23: the rule is the one REGHOST shares with its wire command, and its word is its encoding. -/
theorem reghostFollowsItsRule : Obligations.ReghostFollowsItsRule := by
  refine fun id => ⟨reghostRule fun _ => rfl, fun hl => ?_⟩
  rw [← encode_reghost_ofNat hl]
  exact decode_encode ((dataFits_iff id).2 hl)

/-- Settles O24: the rule is the one ASSIGN shares with its wire command, and its word is its encoding. -/
theorem assignFollowsItsRule : Obligations.AssignFollowsItsRule :=
  ⟨assignRule fun _ => rfl, decode_encode (i := .assign) rfl⟩

/-- Settles O25: the rule is the one MSTATUS shares with its wire command, and its word is its encoding. -/
theorem mstatusFollowsItsRule : Obligations.MstatusFollowsItsRule :=
  ⟨mstatusRule fun _ => rfl, decode_encode (i := .mstatus) rfl⟩

/-- Settles O26: the rule is the one RELEASE shares with its wire command, and its word is its encoding. -/
theorem releaseFollowsItsRule : Obligations.ReleaseFollowsItsRule :=
  ⟨releaseRule fun _ => rfl, decode_encode (i := .release) rfl⟩

/-! ### DISCONNECT -/

theorem exec_disconnect (s : State) : exec .disconnect s = disconnect s := rfl

/-- R190: the end of DISCONNECT after port traffic, its response written over the snapshot before it. -/
theorem disconnected_eq (failed : Bool) {s s' : State} (hr : s'.registers = s.registers) :
    disconnected failed s' = .next ((endSession s').answer
      { Response.base s with fsm := 0, hostV := false, host := 0, warn := releaseWarn failed }) := by
  obtain ⟨-, hdev, -, hout, -, -⟩ := registers_eq hr
  have hb : Response.base (endSession s') = Response.base (endSession s) :=
    base_eq_of_registers (by simp [State.registers, hdev, hout])
  rw [disconnected, hb]
  rfl

/-- R190: outside MASTER a disconnect touches no port. -/
theorem disconnect_outside_master {s : State} (hr : s.fsm ≠ .registering) (ho : s.out = false) (hf : s.fsm ≠ .master) :
    disconnect s = disconnected false s := by
  rw [disconnect, whenLegal_go hr ho rfl, if_neg hf]

/-- R190: the teardown release and the end of DISCONNECT. -/
def teardown (d h : Byte) (s : State) : Result :=
  (masterSet d h Config.releaseByte s).conclude (fun _ => disconnected true) fun _ => disconnected false

theorem disconnect_in_master {s : State} {d h : Byte} (ho : s.out = false) (hf : s.fsm = .master)
    (hd : s.dev = some d) (hh : s.host = some h) : disconnect s = teardown d h s := by
  rw [disconnect, whenLegal_go (by simp [hf]) ho rfl, if_pos hf, withAddresses_some hd hh]
  rfl

theorem teardown_of_zero {d h : Byte} {s s' : State}
    (ht : transact d h Config.masterSet [Config.releaseByte] s = .ok [0x00] s') :
    teardown d h s = disconnected false s' := by
  rw [teardown, masterSet_of_zero ht]
  rfl

/-- R190: a teardown release that raises any error is a failed one. -/
theorem teardown_of_masterSet_raised {d h : Byte} {e : Err} {s s' : State}
    (hm : masterSet d h Config.releaseByte s = .raised e s') : teardown d h s = disconnected true s' := by
  rw [teardown, hm]
  rfl

/-- R190: so is one whose reply is not the one byte zero. -/
theorem teardown_of_ne_zero {d h : Byte} {rdata : Bytes} {s s' : State}
    (ht : transact d h Config.masterSet [Config.releaseByte] s = .ok rdata s') (hne : rdata ≠ [0x00]) :
    teardown d h s = disconnected true s' := by
  by_cases hl : rdata.length = 1
  · obtain ⟨r, rfl⟩ := List.length_eq_one_iff.1 hl
    exact teardown_of_masterSet_raised (masterSet_of_nonzero ht fun hr => hne (by rw [hr]))
  · exact teardown_of_masterSet_raised (masterSet_of_raised (controlReply_of_length ht hl))

/-- Settles O27: whatever the teardown release gives, DISCONNECT ends the session; only the warning depends on it. -/
theorem disconnectFollowsItsRule : Obligations.DisconnectFollowsItsRule := by
  refine ⟨decode_encode (i := .disconnect) rfl, fun s hr => ?_⟩
  rw [exec_disconnect]
  refine ⟨fun ho => whenLegal_busy _ hr ho _,
    fun ho hf => (disconnect_outside_master hr ho hf).trans (disconnected_eq false rfl), fun d h ho hf hd hh => ?_⟩
  rw [disconnect_in_master ho hf hd hh]
  refine ⟨fun rd rh rc ts ds hts hds => ?_, fun rdata s' ht => ?_, fun e s' ht => ?_⟩
  · exact (teardown_of_zero (transact_exchanged (by simp) hts hds)).trans (disconnected_eq false rfl)
  · have hreg := transact_ok_registers ht
    refine ⟨hreg, ?_⟩
    split
    · subst rdata
      exact (teardown_of_zero ht).trans (disconnected_eq false hreg)
    · exact (teardown_of_ne_zero ht ‹_›).trans (disconnected_eq true hreg)
  · have hreg := transact_raised_registers ht
    exact ⟨hreg, (teardown_of_masterSet_raised (masterSet_of_raised (controlReply_of_raised ht))).trans
      (disconnected_eq true hreg)⟩

/-! ### The warning mask -/

/-- Settles O30: each bit of the mask is the condition it was built from. -/
theorem warningMaskIsComputedFromFlagsAndState : Obligations.WarningMaskIsComputedFromFlagsAndState := by
  intro f fsm
  obtain ⟨h0, h1, h2, h3⟩ := nibble_bits (f.getLsbD 0 && f.getLsbD 3) (f.getLsbD 0 && !f.getLsbD 2)
    (f.getLsbD 0 != (fsm == .master)) false
  rw [mswarn, h0, h1, h2]
  exact ⟨by simp, by simp, by rw [bne_iff_ne, ne_eq, Bool.eq_iff_iff, beq_iff_eq], h3⟩

/-! ### Admission -/

theorem admissionError_recv {i : Instr} (hi : operation i = .recv) (s : State) :
    admissionError i s = if s.out then none else some .notOutstanding := by
  rw [admissionError, hi]
  cases s.out <;> rfl

theorem admissionError_check {i : Instr} (hi : operation i = .check) (s : State) :
    admissionError i s = if s.pay = none then some .noPayload else none := by
  rw [admissionError, hi]

/-- R135, R170: the error an operand or register gives once `OUT` and `FSM` admit the operation. -/
def operandError (j : Instr) (s : State) : Option Err :=
  match j with
  | .reghost _ => if s.dev = none then some .noDevice else none
  | .send c _ => if isControl c then some .cmd else none
  | _ => none

/-- R161, R203: the table of every operation but RECV and CHECK, as the order of its checks. -/
theorem admissionError_transmitting {i : Instr} {s : State} (hr : s.fsm ≠ .registering) (hrecv : operation i ≠ .recv)
    (hcheck : operation i ≠ .check) : admissionError i s =
      if s.out then some .busy
      else if legalIn (operation i) s.fsm then operandError (operation i) s else some .fsmState := by
  cases i with
  | recv => exact absurd rfl hrecv
  | check => exact absurd rfl hcheck
  | _ =>
    cases ho : s.out with
    | true => simp [admissionError, operation, ho]
    | false =>
      cases hf : s.fsm with
      | registering => exact absurd hf hr
      | _ => simp [admissionError, operation, operandError, legalIn, connected, isControl_iff, ho, hf]

/-- R203: the same order in the meaning of every operation but RECV and CHECK. -/
theorem exec_transmitting {i : Instr} (hi : i.wf = true) (s : State) (hrecv : operation i ≠ .recv)
    (hcheck : operation i ≠ .check) : ∃ k, exec i s = whenLegal (legalIn (operation i)) s k := by
  cases i with
  | recv => exact absurd rfl hrecv
  | check => exact absurd rfl hcheck
  | reghost id | wireRegHost id => exact ⟨_, withinLane_fits ((dataFits_iff id).1 hi) _⟩
  | send c data | wireDeviceGet c data | wireDeviceSet c data =>
    exact ⟨_, withinLane_fits ((dataFits_iff data).1 (operation_wf hi)) _⟩
  | _ => exact ⟨_, rfl⟩

/-- R135, R170: an operation that `OUT` and `FSM` admit is refused for its operand error. -/
theorem exec_of_operandError {j : Instr} {s : State} {e : Err} (hj : j.wf = true) (hr : s.fsm ≠ .registering)
    (ho : s.out = false) (hl : legalIn j s.fsm = true) (h : operandError j s = some e) :
    exec j s = .next (s.answer (Response.error e s)) := by
  cases j with
  | reghost id =>
    obtain ⟨hd, rfl⟩ : s.dev = none ∧ .noDevice = e := by simpa [operandError] using h
    exact reghost_noDevice _ ((dataFits_iff id).1 hj) ho (by simpa [legalIn] using hl) hd
  | send c data =>
    obtain ⟨hc, rfl⟩ : isControl c = true ∧ .cmd = e := by simpa [operandError] using h
    exact (send_admitted ((dataFits_iff data).1 hj) hr ho ((connected_iff _).1 hl)).trans (if_pos hc)
  | _ => cases h

/-- R161, R203: an operation the table refuses answers the table's error. -/
theorem exec_of_admissionError {i : Instr} {s : State} {e : Err} (hi : i.wf = true) (hr : s.fsm ≠ .registering)
    (h : admissionError i s = some e) : exec i s = .next (s.answer (Response.error e s)) := by
  by_cases hrecv : operation i = .recv
  · obtain ⟨ho, rfl⟩ : s.out = false ∧ .notOutstanding = e := by simpa [admissionError_recv hrecv] using h
    rw [exec_operation, hrecv]
    exact recv_notOutstanding hr ho
  by_cases hcheck : operation i = .check
  · obtain ⟨hp, rfl⟩ : s.pay = none ∧ .noPayload = e := by simpa [admissionError_check hcheck] using h
    rw [exec_operation, hcheck]
    exact check_noPayload _ hr hp
  rw [admissionError_transmitting hr hrecv hcheck] at h
  obtain ⟨k, hk⟩ := exec_transmitting hi s hrecv hcheck
  split at h
  · cases h
    exact hk.trans (whenLegal_busy _ hr ‹_› k)
  have ho : s.out = false := by simpa using ‹¬s.out = true›
  split at h
  · rw [exec_operation]
    exact exec_of_operandError (operation_wf hi) hr ho ‹_› h
  · cases h
    exact hk.trans (whenLegal_fsmState hr ho (by simpa using ‹¬legalIn (operation i) s.fsm = true›) k)

/-- R161, R203: an operation is refused with no error but the table's. -/
theorem Refused.admissionError {i : Instr} {s t : State} {e : Err} (h : Refused (operation i) s t e)
    (hr : s.fsm ≠ .registering) : admissionError i s = some e := by
  obtain ⟨-, h⟩ := h
  cases e with
  | busy =>
    obtain ⟨ho, hrecv, hcheck⟩ := h
    simp [admissionError_transmitting hr hrecv hcheck, ho]
  | fsmState =>
    obtain ⟨ho, hl⟩ := h
    have hrecv : operation i ≠ .recv := fun hi => by simp [hi, legalIn] at hl
    have hcheck : operation i ≠ .check := fun hi => by simp [hi, legalIn] at hl
    simp [admissionError_transmitting hr hrecv hcheck, ho, hl]
  | noDevice =>
    obtain ⟨ho, hf, hd, id, hi⟩ := h
    simp [admissionError_transmitting hr, hi, ho, hf, hd, legalIn, operandError]
  | notOutstanding =>
    obtain ⟨ho, hi⟩ := h
    simp [admissionError_recv hi, ho]
  | noPayload =>
    obtain ⟨hp, hi⟩ := h
    simp [admissionError_check hi, hp]
  | cmd =>
    obtain ⟨ho, hf, c, data, hi, hc⟩ := h
    simp [admissionError_transmitting hr, hi, ho, hf, hc, legalIn, operandError]
  | _ => exact h.elim

/-- The errors an admitted operation reports: of its port traffic (R162), of the reply or of the payload. -/
def TrafficError (e : Err) : Prop :=
  e = .timeoutTx ∨ ReceiveError e ∨ e = .badReplyLen ∨ ∃ code, e = .device code

theorem TrafficError.not_admissionClass {e : Err} (h : TrafficError e) : ¬AdmissionClass e.cls.code := by
  have hcls : e.cls = .timeout ∨ e.cls = .protocol ∨ e.cls = .checksum ∨ e.cls = .device := by
    obtain rfl | (rfl | rfl | rfl | ⟨c, k, -, rfl⟩) | rfl | ⟨code, rfl⟩ := h <;> simp [Err.cls]
  obtain h | h | h | h := hcls <;> rw [h] <;> simp [AdmissionClass, StatusClass.code]

theorem ControlError.trafficError {e : Err} (h : ControlError e) : TrafficError e := h.imp_right (.imp_right .inl)

theorem MasterSetError.trafficError {e : Err} (h : MasterSetError e) : TrafficError e :=
  h.imp_right (.imp_right (.imp_right fun ⟨_, _, h⟩ => ⟨_, h⟩))

/-- R205: an admitted operation ends with status `OK` or with the error of its traffic. -/
theorem Ends.ok_or_error {j : Instr} {s : State} {g : Registers} {r : Response} (h : Ends j s g r) :
    r.status = 0 ∨ ∃ e, TrafficError e ∧ r = Response.error e (s.withRegisters g) := by
  cases j with
  | config d =>
    obtain ⟨-, -, -, rfl⟩ := h
    exact .inl rfl
  | reghost id =>
    obtain ⟨-, -, -, ⟨b, -, rfl⟩ | ⟨e, he, -, rfl⟩⟩ := h
    · exact .inl rfl
    · exact .inr ⟨e, he.trafficError, rfl⟩
  | assign | release =>
    obtain ⟨-, -, ⟨-, rfl⟩ | ⟨e, he, -, rfl⟩⟩ := h
    · exact .inl rfl
    · exact .inr ⟨e, he.trafficError, rfl⟩
  | mstatus =>
    obtain ⟨-, -, ⟨m, -, rfl⟩ | ⟨e, he, -, rfl⟩⟩ := h
    · exact .inl rfl
    · exact .inr ⟨e, he.trafficError, rfl⟩
  | send c data =>
    obtain ⟨-, -, -, ⟨-, rfl⟩ | ⟨-, rfl⟩⟩ := h
    · exact .inl rfl
    · exact .inr ⟨_, .inl rfl, rfl⟩
  | recv =>
    obtain ⟨-, ⟨f, -, -, rfl⟩ | ⟨e, he, -, rfl⟩⟩ := h
    · exact .inl rfl
    · exact .inr ⟨e, .inr (.inl he), rfl⟩
  | check =>
    obtain ⟨-, f, -, ⟨code, rfl⟩ | rfl⟩ := h
    · exact .inr ⟨_, .inr (.inr (.inr ⟨code, rfl⟩)), rfl⟩
    · exact .inl rfl
  | disconnect =>
    obtain ⟨-, -, failed, rfl⟩ := h
    exact .inl rfl
  | _ => exact h.elim

/-- R203: an admitted operation reports no admission class. -/
theorem Ends.not_admissionClass {j : Instr} {s : State} {g : Registers} {r : Response} (h : Ends j s g r) :
    ¬AdmissionClass r.classCode := by
  obtain h | ⟨e, he, rfl⟩ := h.ok_or_error
  · simp [AdmissionClass, Response.classCode, h]
  · rw [classCode_error]
    exact he.not_admissionClass

/-- R84: an operation that answered was refused or ended; a reset takes the response away. -/
theorem Went.of_answered {j : Instr} {s t : State} {r : Response} (h : Went j s t) (ha : Answered s t r) :
    (∃ e, Refused j s t e ∧ r = Response.error e s) ∨ Ends j s t.registers r := by
  have only {rs : List Response} (h : t.responses = s.responses ++ rs) : rs = [r] :=
    List.append_cancel_left (h.symm.trans ha)
  obtain ⟨e, he⟩ | ⟨evs, -, ⟨g, r', he, hc⟩ | hc⟩ := h
  · exact .inl ⟨e, he, by simpa using (only (congrArg State.responses he.1)).symm⟩
  · obtain rfl : r' = r := by simpa using only hc.responses
    exact .inr (hc.registers ▸ he)
  · cases only hc.responses

/-- Settles O35: the meaning makes the table's checks in the table's order, and what an operation reports after them is
the error of its traffic. -/
theorem admissionFollowsTheTable : Obligations.AdmissionFollowsTheTable := by
  refine fun i s hi hr => ⟨fun e => exec_of_admissionError hi hr, fun hnone t r h ha => ?_⟩
  obtain ⟨e, he, -⟩ | he := (exec_went h).of_answered ha
  · cases hnone.symm.trans (he.admissionError hr)
  · exact he.not_admissionClass

/-! ### The moves of FSM -/

/-- R160: an operation that ends with another `FSM` made its own move, with status `OK`. -/
theorem fsmMove_of_ends {i : Instr} {s : State} {g : Registers} {r : Response} (h : Ends (operation i) s g r)
    (hne : g.fsm ≠ s.fsm) : fsmMove i s.fsm g.fsm ∧ r.status = 0 := by
  unfold fsmMove
  generalize operation i = j at h
  cases j with
  | reghost id =>
    obtain ⟨-, hf, -, ⟨b, rfl, rfl⟩ | ⟨e, -, rfl, -⟩⟩ := h
    · exact ⟨⟨hf, rfl⟩, rfl⟩
    · exact absurd rfl hne
  | assign | release =>
    obtain ⟨-, hf, ⟨rfl, rfl⟩ | ⟨e, -, rfl, -⟩⟩ := h
    · exact ⟨⟨hf, rfl⟩, rfl⟩
    · exact absurd rfl hne
  | disconnect =>
    obtain ⟨-, rfl, failed, rfl⟩ := h
    exact ⟨rfl, rfl⟩
  | config d | mstatus | send c data | recv | check =>
    exact absurd (congrArg Registers.fsm h.eq_written) hne
  | _ => exact h.elim

/-- Settles O41: a refusal leaves `FSM`, an end moves it by the table, and a reset goes to DISCONNECTED. -/
theorem fsmMovesOnlyByTheTable : Obligations.FsmMovesOnlyByTheTable := by
  intro i s t h hne
  obtain ⟨e, rfl, -⟩ | ⟨evs, -, ⟨g, r, he, hc⟩ | hc⟩ := exec_went h
  · exact absurd rfl hne
  · obtain rfl := hc.registers
    obtain ⟨hmove, hok⟩ := fsmMove_of_ends he hne
    exact .inr ⟨hmove, r, hc.responses, hok⟩
  · exact .inl ⟨⟨by simpa using hc.responses, hc.registers⟩, congrArg Registers.fsm hc.registers⟩

/-- R160: a step that changes `FSM` is a reset or an operation that made its own move with status `OK`. -/
theorem step_fsm_ne {s t : State} (h : step s = .next t) (hne : t.fsm ≠ s.fsm) :
    (AbortedByReset s t ∧ t.fsm = .disconnected) ∨
    ∃ it ins i r, s.inputs = .item it :: ins ∧ decode it = .ok i ∧ fsmMove i s.fsm t.fsm ∧ Answered s t r ∧
      r.status = 0 := by
  obtain ⟨-, rfl⟩ | ⟨ins, -, rfl⟩ | ⟨it, ins, i, hin, hd, h⟩ | ⟨it, ins, e, -, -, -, -, rfl⟩ := step_next h
  · exact absurd rfl hne
  · exact .inl ⟨⟨rfl, rfl⟩, rfl⟩
  · obtain ha | ⟨hmove, r, ha, hok⟩ := fsmMovesOnlyByTheTable i _ t h hne
    · exact .inl ha
    · exact .inr ⟨it, ins, i, r, hin, hd, hmove, ha, hok⟩
  · exact absurd rfl hne

/-- R160: the only move into MASTER. -/
theorem fsmMove_to_master {i : Instr} {before : Fsm} (h : fsmMove i before .master) :
    operation i = .assign ∧ before = .registered := by
  unfold fsmMove at h
  split at h <;> simp_all

/-- R160: the only moves out of MASTER. -/
theorem fsmMove_from_master {i : Instr} {after : Fsm} (h : fsmMove i .master after) :
    operation i = .release ∨ operation i = .disconnect := by
  unfold fsmMove at h
  split at h <;> simp_all

/-- Settles O42: of the table's moves only ASSIGN's ends in MASTER and only RELEASE's and DISCONNECT's begin there. -/
theorem onlyAssignCreatesMasterRights : Obligations.OnlyAssignCreatesMasterRights := by
  refine fun s t h => ⟨fun hs ht => ?_, fun hs ht => ?_⟩
  · obtain ⟨-, hd⟩ | ⟨it, ins, i, r, hin, hdec, hmove, ha, hok⟩ := step_fsm_ne h (ht ▸ hs.symm)
    · cases hd.symm.trans ht
    · obtain ⟨hi, hreg⟩ := fsmMove_to_master (ht ▸ hmove)
      exact ⟨it, ins, i, r, hin, hdec, hi, hreg, ha, hok⟩
  · obtain ⟨ha, -⟩ | ⟨it, ins, i, r, hin, hdec, hmove, ha, hok⟩ := step_fsm_ne h (hs ▸ ht)
    · exact .inl ha
    · exact .inr ⟨it, ins, i, r, hin, hdec, fsmMove_from_master (hs ▸ hmove), ha, hok⟩

end Sys2Proof.Machine

/-! PROOFS. The status values, the warnings and the register effects of errors (R200 to R202, R205, R209). -/

namespace Sys2Proof.Machine

/-! ### The status byte and the records of an error -/

@[simp] theorem status_badStx : Err.badStx.status = 0x21 := rfl
@[simp] theorem status_truncated : Err.truncated.status = 0x22 := rfl
@[simp] theorem status_overlength : Err.overlength.status = 0x23 := rfl
@[simp] theorem status_badReplyLen : Err.badReplyLen.status = 0x24 := rfl
@[simp] theorem status_timeoutRx : Err.timeoutRx.status = 0x41 := rfl
@[simp] theorem status_timeoutTx : Err.timeoutTx.status = 0x42 := rfl
@[simp] theorem status_fsmState : Err.fsmState.status = 0x51 := rfl
@[simp] theorem status_noDevice : Err.noDevice.status = 0x52 := rfl
@[simp] theorem status_notOutstanding : Err.notOutstanding.status = 0x53 := rfl
@[simp] theorem status_noPayload : Err.noPayload.status = 0x54 := rfl
@[simp] theorem status_busy : Err.busy.status = 0x60 := rfl
@[simp] theorem status_illegal : Err.illegal.status = 0x70 := rfl
@[simp] theorem status_cmd : Err.cmd.status = 0x80 := rfl

@[simp] theorem error_status (e : Err) (s : State) : (Response.error e s).status = e.status := by cases e <;> rfl

@[simp] theorem error_warn (e : Err) (s : State) : (Response.error e s).warn = 0 := by cases e <;> rfl

/-- R84: the received and the computed checksum are what a checksum error records. -/
theorem error_checksum (c k : Byte) (s : State) :
    Response.error (.checksum c k) s = { Response.base s with status := 0x10, chkRx := c, chkCalc := k } := by
  rw [Response.error, status_checksum]

/-- Settles O31: a checksum error and a device error record their own fields, and every other error only its status. -/
theorem errorResponsesCarryTheirCodes : Obligations.ErrorResponsesCarryTheirCodes := fun s c k code =>
  ⟨error_checksum c k s, rfl, rfl, rfl, error_device code s, rfl, rfl, rfl, rfl, rfl, rfl, rfl, rfl, rfl,
    status_overlength⟩

/-! ### The errors of each operation -/

/-- R103: a receive's errors are RECV's. -/
theorem ReceiveError.status_mem {e : Err} (h : ReceiveError e) : e.status ∈ possibleStatus .recv := by
  obtain rfl | rfl | rfl | ⟨c, k, -, rfl⟩ := h <;> simp [possibleStatus, operation]

/-- R162, R180: the errors of a control exchange are MSTATUS's. -/
theorem ControlError.status_mem {e : Err} (h : ControlError e) : e.status ∈ possibleStatus .mstatus := by
  obtain rfl | (rfl | rfl | rfl | ⟨c, k, -, rfl⟩) | rfl := h <;> simp [possibleStatus, operation]

/-- R170: they are REGHOST's too. -/
theorem ControlError.status_mem_reghost {e : Err} (h : ControlError e) (id : Bytes) :
    e.status ∈ possibleStatus (.reghost id) :=
  have hsub : possibleStatus .mstatus ⊆ possibleStatus (.reghost id) := by simp [possibleStatus, operation]
  hsub h.status_mem

/-- R175: the errors of a MASTER_SET exchange are ASSIGN's. RELEASE has the same list (R185). -/
theorem MasterSetError.status_mem {e : Err} (h : MasterSetError e) : e.status ∈ possibleStatus .assign := by
  obtain rfl | (rfl | rfl | rfl | ⟨c, k, -, rfl⟩) | rfl | ⟨b, -, rfl⟩ := h <;> simp [possibleStatus, operation]

/-- R203: the errors of its admission are the operation's. -/
theorem Refused.status_mem {j : Instr} {s t : State} {e : Err} (h : Refused j s t e) : e.status ∈ possibleStatus j := by
  obtain ⟨-, h⟩ := h
  cases e with
  | busy =>
    obtain ⟨-, hrecv, hcheck⟩ := h
    cases j with
    | recv => exact absurd rfl hrecv
    | check => exact absurd rfl hcheck
    | _ => simp [possibleStatus, operation]
  | fsmState =>
    obtain ⟨-, hl⟩ := h
    cases j with
    | config d | reghost id | assign | mstatus | release | send c data => simp [possibleStatus, operation]
    | _ => cases hl
  | noDevice =>
    obtain ⟨-, -, -, id, rfl⟩ := h
    simp [possibleStatus, operation]
  | notOutstanding =>
    obtain ⟨-, rfl⟩ := h
    simp [possibleStatus, operation]
  | noPayload =>
    obtain ⟨-, rfl⟩ := h
    simp [possibleStatus, operation]
  | cmd =>
    obtain ⟨-, -, c, data, rfl, -⟩ := h
    simp [possibleStatus, operation]
  | _ => exact h.elim

/-- R203: an operation is refused with an error of an admission class only. -/
theorem Refused.admissionClass {j : Instr} {s t : State} {e : Err} (h : Refused j s t e) :
    AdmissionClass e.cls.code := by
  obtain ⟨-, h⟩ := h
  cases e with
  | busy | fsmState | noDevice | notOutstanding | noPayload | cmd => simp [AdmissionClass, Err.cls, StatusClass.code]
  | _ => exact h.elim

/-! ### How an admitted operation ends -/

/-- R209: the masks a response of the operation `j` may warn with. -/
def Warns (j : Instr) (w : BitVec 4) : Prop :=
  w = 0 ∨ (j = .mstatus ∧ w.getLsbD 3 = false) ∨ (j = .disconnect ∧ w = 0b1000)

theorem warns_mswarn (f : BitVec 4) (fsm : Fsm) : Warns .mstatus (mswarn f fsm) := by
  obtain ⟨-, -, -, h3⟩ := warningMaskIsComputedFromFlagsAndState f fsm
  exact .inr (.inl ⟨rfl, h3⟩)

theorem warns_releaseWarn (failed : Bool) : Warns .disconnect (releaseWarn failed) := by
  cases failed with
  | false => exact .inl (by decide)
  | true => exact .inr (.inr ⟨rfl, by decide⟩)

/-- R205: the registers `g` as an error of the admitted operation `j` leaves them. -/
def afterError (j : Instr) (g : Registers) : Registers :=
  match j with
  | .recv => { g with out := false, pay := none }
  | .reghost _ => { g with fsm := .disconnected }
  | _ => g

/-- R200 to R202, R205, R209: an admitted operation ends with status `OK` and its own warnings, or with an error of its
list, which changed the registers R205 names. -/
theorem Ends.ok_or_failed {j : Instr} {s : State} {g : Registers} {r : Response} (h : Ends j s g r) :
    (r.status = 0 ∧ Warns j r.warn) ∨
      ∃ e, e.status ∈ possibleStatus j ∧ g = afterError j s.registers ∧ r = Response.error e (s.withRegisters g) := by
  cases j with
  | config d =>
    obtain ⟨-, -, -, rfl⟩ := h
    exact .inl ⟨rfl, .inl rfl⟩
  | reghost id =>
    obtain ⟨-, hf, -, ⟨b, -, rfl⟩ | ⟨e, he, rfl, rfl⟩⟩ := h
    · exact .inl ⟨rfl, .inl rfl⟩
    · exact .inr ⟨e, he.status_mem_reghost id, by rw [afterError, ← hf]; rfl, rfl⟩
  | assign | release =>
    obtain ⟨-, -, ⟨-, rfl⟩ | ⟨e, he, rfl, rfl⟩⟩ := h
    · exact .inl ⟨rfl, .inl rfl⟩
    · exact .inr ⟨e, he.status_mem, rfl, rfl⟩
  | mstatus =>
    obtain ⟨-, -, ⟨m, -, rfl⟩ | ⟨e, he, rfl, rfl⟩⟩ := h
    · exact .inl ⟨rfl, warns_mswarn _ _⟩
    · exact .inr ⟨e, he.status_mem, rfl, rfl⟩
  | send c data =>
    obtain ⟨-, -, -, ⟨-, rfl⟩ | ⟨rfl, rfl⟩⟩ := h
    · exact .inl ⟨rfl, .inl rfl⟩
    · exact .inr ⟨.timeoutTx, by simp [possibleStatus, operation], rfl, rfl⟩
  | recv =>
    obtain ⟨-, ⟨f, -, -, rfl⟩ | ⟨e, he, rfl, rfl⟩⟩ := h
    · exact .inl ⟨rfl, .inl rfl⟩
    · exact .inr ⟨e, he.status_mem, rfl, rfl⟩
  | check =>
    obtain ⟨rfl, f, -, ⟨code, rfl⟩ | rfl⟩ := h
    · exact .inr ⟨.device code, by simp [possibleStatus, operation], rfl, rfl⟩
    · exact .inl ⟨rfl, .inl rfl⟩
  | disconnect =>
    obtain ⟨-, -, failed, rfl⟩ := h
    exact .inl ⟨rfl, warns_releaseWarn failed⟩
  | _ => exact h.elim

/-! ### Status values -/

/-- A wire command's status values are its sender's (log entry 1). -/
theorem possibleStatus_operation (i : Instr) : possibleStatus (operation i) = possibleStatus i := by cases i <;> rfl

/-- R200: every operation can succeed. -/
theorem ok_mem_possibleStatus (i : Instr) : 0 ∈ possibleStatus i := by cases i <;> simp [possibleStatus, operation]

/-- Settles O33: a refusal has an error of admission, an end the status `OK` or an error of the operation's list. -/
theorem operationsReportOnlyTheirStatus : Obligations.OperationsReportOnlyTheirStatus := by
  intro i s t r h ha
  rw [← possibleStatus_operation]
  obtain ⟨e, hrefused, rfl⟩ | hends := (exec_went h).of_answered ha
  · rw [error_status]
    exact hrefused.status_mem
  obtain ⟨hok, -⟩ | ⟨e, he, -, rfl⟩ := hends.ok_or_failed
  · rw [hok]
    exact ok_mem_possibleStatus _
  · rwa [error_status]

/-! ### Warnings -/

/-- Settles O34: an error's response has no warning, and a success has only those of its operation. -/
theorem warningsNeverChangeTheStatus : Obligations.WarningsNeverChangeTheStatus := by
  intro i s t r h ha hw
  obtain ⟨e, -, rfl⟩ | hends := (exec_went h).of_answered ha
  · exact absurd (error_warn e s) hw
  obtain ⟨hok, hwarns⟩ | ⟨e, -, -, rfl⟩ := hends.ok_or_failed
  · exact ⟨hok, hwarns.resolve_left hw⟩
  · exact absurd (error_warn e _) hw

/-! ### What an error changes -/

/-- R145: CHECK changes nothing but the response. -/
theorem check_answered {s t : State} {r : Response} (h : exec .check s = .next t) (ha : Answered s t r) :
    t = s.answer r := by
  have of_answer {r' : Response} (ht : t = s.answer r') : t = s.answer r := by
    obtain rfl : r' = r := by simpa [ht, Answered] using ha
    exact ht
  obtain ⟨-, ⟨e, ht, -⟩ | ⟨f, -, ⟨code, -, ht⟩ | ⟨-, ht⟩⟩⟩ := check_next h <;> exact of_answer ht

/-- R205: the registers an error leaves: those before it if the operation was refused, else those `afterError` names. -/
theorem registers_of_error {i : Instr} {s t : State} {r : Response} (h : exec i s = .next t) (ha : Answered s t r)
    (hr : r.status ≠ 0) : (AdmissionClass r.classCode ∧ t = s.answer r) ∨
      (¬AdmissionClass r.classCode ∧ t.registers = afterError (operation i) s.registers) := by
  obtain ⟨e, hrefused, rfl⟩ | hends := (exec_went h).of_answered ha
  · exact .inl ⟨classCode_error e s ▸ hrefused.admissionClass, hrefused.1⟩
  obtain ⟨hok, -⟩ | ⟨e, -, hg, -⟩ := hends.ok_or_failed
  · exact absurd hok hr
  · exact .inr ⟨hends.not_admissionClass, hg⟩

/-- Settles O36: a refusal changes nothing but the response, and an error after admission what `afterError` says. -/
theorem errorsChangeOnlyWhatTheTableSays : Obligations.ErrorsChangeOnlyWhatTheTableSays := by
  intro i s t r h ha hr
  have hcheck (hi : operation i = .check) : t = s.answer r := check_answered (by rw [← hi, ← exec_operation, h]) ha
  obtain ⟨hc, ht⟩ | ⟨hc, hg⟩ := registers_of_error h ha hr
  · have hg : t.registers = s.registers := by rw [ht, answer_registers]
    exact ⟨fun _ => ht, fun _ _ _ => hg, fun _ hn => absurd hc hn, fun _ _ hn => absurd hc hn, fun _ => hg, hcheck⟩
  · have after {j : Instr} (hi : operation i = j) : t.registers = afterError j s.registers := hi ▸ hg
    refine ⟨fun h => absurd h hc, fun c data hi => after hi, fun hi _ => after hi, fun id hi _ => after hi, ?_, hcheck⟩
    rintro (hi | hi | hi) <;> exact after hi

end Sys2Proof.Machine

/-! PROOFS. Reset (R230 to R232): the registers after it, the points of a port call at which it falls, and the operations
it aborts there. -/

namespace Sys2Proof.Machine

/-! ### Outside the port calls -/

theorem step_reset {s : State} {ins : List Input} (h : s.inputs = .reset :: ins) :
    step s = .next (resetRegisters { s with inputs := ins }) := by simp [step, fetch, h]

theorem step_aborted {s : State} {it : Item} {ins : List Input} (h : s.inputs = .aborted it :: ins) :
    step s = .next (resetRegisters { s with inputs := ins }) := by simp [step, fetch, h]

/-- Settles O17: nothing is requested at reset, and a reset input leads to the reset registers. -/
theorem resetRestoresTheRegisters : Obligations.ResetRestoresTheRegisters :=
  ⟨⟨rfl, rfl, rfl, rfl, rfl, rfl, step_idle rfl⟩, fun _ _ => step_reset⟩

/-! ### Inside a transmission -/

/-- R104, R232: a transmission cut by a reset when `k` bytes are out. -/
theorem txSend_reset {d h : Byte} {c : Command} {data : Bytes} {s : State} {k : Nat} {ts : List TxDraw}
    (hk : k ≤ (encodeFrame d h c data).length) (hs : s.txDraws = .reset k :: ts) :
    txSend d h c data s = .aborted { s with
      txDraws := ts, trace := s.trace ++ [.tx (encodeFrame d h c data) k] } := by
  simp [txSend, txFrame, drawTx, hs, State.record, Nat.mod_eq_of_lt (Nat.lt_succ_of_le hk)]

/-! ### Inside a receive -/

/-- R103: `k` reads the bytes `need` one by one: after each proper beginning of them the next thing it does is an
`RxByte` call. -/
def Reads {α : Type} (k : State → Port α) (need : Bytes) : Prop :=
  ∀ i < need.length, ∀ (s : State) (ds : List RxDraw), s.rxDraws = (need.take i).map .byte ++ ds →
    ∃ (e : Err) (rest : Byte → State → Port α), k s = (rxByte e (s.took (need.take i) ds)).bind rest

theorem reads_nil {α : Type} (k : State → Port α) : Reads k [] := fun _ hi => absurd hi (Nat.not_lt_zero _)

theorem took_nil {s : State} {ds : List RxDraw} (h : s.rxDraws = ds) : s.took [] ds = s := by
  subst h
  simp [State.took]

theorem Reads.rxByte_bind {α : Type} {e : Err} {k : Byte → State → Port α} {b : Byte} {need : Bytes}
    (hk : Reads (k b) need) : Reads (fun s => (rxByte e s).bind k) (b :: need) := by
  intro i hi s ds hs
  cases i with
  | zero => exact ⟨e, k, by rw [List.take_zero, took_nil (ds := ds) hs]⟩
  | succ i =>
    obtain ⟨e', rest, h⟩ := hk i (Nat.lt_of_succ_lt_succ hi) (s.took [b] ((need.take i).map .byte ++ ds)) ds rfl
    rw [took_took] at h
    refine ⟨e', rest, ?_⟩
    change (rxByte e s).bind k = _
    rw [rxByte_took e hs]
    exact h

theorem Reads.rxBytes_bind {α : Type} {k : Bytes → State → Port α} {data need : Bytes} (hk : Reads (k data) need) :
    Reads (fun s => (rxBytes data.length s).bind k) (data ++ need) := by
  induction data generalizing k with
  | nil => exact hk
  | cons b bs ih =>
    simp only [List.length_cons, rxBytes_succ_bind]
    exact .rxByte_bind (ih (k := fun bs => k (b :: bs)) hk)

/-- R103: a receive reads a frame from its STX to its CHK byte by byte. -/
theorem rxFrame_reads {n : Byte} {data : Bytes} (hn : data.length = n.toNat) (d h m l c : Byte) :
    Reads rxFrame (Config.stx :: n :: d :: h :: m :: l :: (data ++ [c])) := by
  refine .rxByte_bind ?_
  simp only [ne_eq, not_true_eq_false, ↓reduceIte]
  refine .rxByte_bind <| .rxByte_bind <| .rxByte_bind <| .rxByte_bind <| .rxByte_bind ?_
  rw [← hn]
  exact .rxBytes_bind <| .rxByte_bind <| reads_nil _

theorem rxByte_reset (e : Err) {s : State} {ds : List RxDraw} (h : s.rxDraws = .reset :: ds) :
    rxByte e s = .aborted (s.took [] ds) := by
  simp [rxByte, drawRx, h, State.took]

theorem rxByte_byteReset (e : Err) {s : State} {b : Byte} {ds : List RxDraw} (h : s.rxDraws = .byteReset b :: ds) :
    rxByte e s = .aborted (s.took [b] ds) := by
  simp [rxByte, drawRx, h, State.took, State.record]

/-- R232: a reset before a byte the procedure reads aborts it with the bytes before that one taken. -/
theorem Reads.aborted_of_reset {α : Type} {k : State → Port α} {need : Bytes} (hk : Reads k need) {i : Nat}
    (hi : i < need.length) {s : State} {ds : List RxDraw} (hs : s.rxDraws = (need.take i).map .byte ++ .reset :: ds) :
    k s = .aborted (s.took (need.take i) ds) := by
  obtain ⟨e, rest, h⟩ := hk i hi s _ hs
  rw [h, rxByte_reset e rfl, took_took, List.append_nil]
  rfl

/-- R232: a reset right after a byte the procedure takes aborts it with that byte taken too, whichever it is. -/
theorem Reads.aborted_of_byteReset {α : Type} {k : State → Port α} {need : Bytes} (hk : Reads k need) {i : Nat}
    (hi : i < need.length) {s : State} {b : Byte} {ds : List RxDraw}
    (hs : s.rxDraws = (need.take i).map .byte ++ .byteReset b :: ds) :
    k s = .aborted (s.took (need.take i ++ [b]) ds) := by
  obtain ⟨e, rest, h⟩ := hk i hi s _ hs
  rw [h, rxByte_byteReset e rfl, took_took]
  rfl

/-! ### Inside a transaction -/

/-- R162: a transaction whose transmission is aborted is aborted there. -/
theorem transact_of_txSend_aborted {d h : Byte} {c : Command} {data : Bytes} {s p : State}
    (hs : txSend d h c data s = .aborted p) : transact d h c data s = .aborted p := by
  rw [transact, hs]
  rfl

/-- R162: a transaction whose receive is aborted is aborted there. -/
theorem transact_of_rxFrame_aborted {d h : Byte} {c : Command} {data : Bytes} {s s₁ p : State}
    (hs : txSend d h c data s = .ok () s₁) (hr : rxFrame s₁ = .aborted p) : transact d h c data s = .aborted p := by
  rw [transact, hs, Port.ok_bind, hr]
  rfl

/-- Settles O50: a transmission is one call, a receive one call for each byte of its frame, and a transaction the one
after the other. -/
theorem resetFallsAnywhereInAPortCall : Obligations.ResetFallsAnywhereInAPortCall := by
  refine ⟨fun s d h c data k ts hk hs => txSend_reset hk hs, fun s n d h m l c data j ds hn => ?_,
    fun s s₁ p d h c data => ⟨transact_of_txSend_aborted, transact_of_rxFrame_aborted⟩⟩
  intro frame hj
  have hreads : Reads rxFrame frame := rxFrame_reads hn d h m l c
  refine ⟨hreads.aborted_of_reset hj, fun b hs => ?_⟩
  rw [hreads.aborted_of_byteReset hj hs]
  simp [State.took]

/-! ### An aborted operation -/

/-- R162, R232: a control command whose exchange is aborted is aborted there. -/
theorem controlReply_of_aborted {d h : Byte} {c : Command} {data : Bytes} {s p : State}
    (ha : transact d h c data s = .aborted p) : controlReply d h c data s = .aborted p := by
  rw [controlReply, ha]
  rfl

/-- R175, R185, R232: so is MASTER_SET. -/
theorem masterSet_of_aborted {d h b : Byte} {s p : State}
    (ha : transact d h Config.masterSet [b] s = .aborted p) : masterSet d h b s = .aborted p := by
  rw [masterSet, controlReply_of_aborted ha]
  rfl

theorem recv_of_aborted {s p : State} (hr : s.fsm ≠ .registering) (ho : s.out = true)
    (ha : rxFrame { s with out := false, pay := none } = .aborted p) :
    exec .recv s = .next (resetRegisters p) := by
  rw [recv_outstanding hr ho, ha]
  rfl

theorem reghost_of_aborted {id : Bytes} {s p : State} {d : Byte} (hid : id.length ≤ 255) (ho : s.out = false)
    (hf : s.fsm = .disconnected) (hd : s.dev = some d)
    (ha : transact d Config.params.regHostField Config.regHost id { s with fsm := .registering } = .aborted p) :
    exec (.reghost id) s = .next (resetRegisters p) := by
  change reghost Config.params id s = _
  rw [reghost_admitted _ hid ho hf hd, controlReply_of_aborted ha]
  rfl

/-! In a session, with no response outstanding and the addresses `d` and `h`. -/

section
variable {s p : State} {d h : Byte} (ho : s.out = false) (hd : s.dev = some d) (hh : s.host = some h)
include ho hd hh

theorem send_of_aborted {c : Command} {data : Bytes} (hf : s.fsm = .registered ∨ s.fsm = .master)
    (hl : data.length ≤ 255) (hc : isControl c = false) (ha : txSend d h c data s = .aborted p) :
    exec (.send c data) s = .next (resetRegisters p) := by
  have hr : s.fsm ≠ .registering := by rcases hf with hf | hf <;> simp [hf]
  change send c data s = _
  rw [send_admitted hl hr ho hf, hc, withAddresses_some hd hh, ha]
  rfl

theorem assign_of_aborted (hf : s.fsm = .registered)
    (ha : transact d h Config.masterSet [Config.assignByte] s = .aborted p) :
    exec .assign s = .next (resetRegisters p) := by
  change assign s = _
  rw [assign, whenLegal_go (by simp [hf]) ho (by simp [hf]), withAddresses_some hd hh, masterSet_of_aborted ha]
  rfl

theorem mstatus_of_aborted (hf : s.fsm = .registered ∨ s.fsm = .master)
    (ha : transact d h Config.masterGet [] s = .aborted p) : exec .mstatus s = .next (resetRegisters p) := by
  have hr : s.fsm ≠ .registering := by rcases hf with hf | hf <;> simp [hf]
  change mstatus Config.params s = _
  rw [mstatus_admitted _ hr ho hf hd hh, controlReply_of_aborted ha]
  rfl

theorem release_of_aborted (hf : s.fsm = .master)
    (ha : transact d h Config.masterSet [Config.releaseByte] s = .aborted p) :
    exec .release s = .next (resetRegisters p) := by
  change release s = _
  rw [release, whenLegal_go (by simp [hf]) ho (by simp [hf]), withAddresses_some hd hh, masterSet_of_aborted ha]
  rfl

/-- R190, R232: DISCONNECT's `catch` is for raised errors only. -/
theorem disconnect_of_aborted (hf : s.fsm = .master)
    (ha : transact d h Config.masterSet [Config.releaseByte] s = .aborted p) :
    exec .disconnect s = .next (resetRegisters p) := by
  rw [exec_disconnect, disconnect_in_master ho hf hd hh, teardown, masterSet_of_aborted ha]
  rfl

end

/-- R232: an operation that, begun in `s`, ends in the reset registers on the port traffic from `s₀` to `p`, where `s₀`
is `s` but for the registers. -/
theorem abortsIn_of_traffic {i j : Instr} {s s₀ p : State} (hi : operation i = j)
    (hs₀ : s₀ = s.withRegisters s₀.registers) (ht : ∃ evs, Traffic s₀ p evs)
    (hx : exec j s = .next (resetRegisters p)) : AbortsIn i s p := by
  obtain ⟨evs, ht⟩ := ht
  refine ⟨⟨evs, ?_⟩, ?_, ?_, ?_⟩
  · rw [ht.trace, hs₀, withRegisters_trace]
  · rw [ht.responses, hs₀, withRegisters_responses]
  · rw [ht.inputs, hs₀, withRegisters_inputs]
  · rw [exec_operation, hi, hx]
    rfl

theorem rxFrame_aborted_traffic {s p : State} (ha : rxFrame s = .aborted p) : ∃ evs, Traffic s p evs := by
  obtain ⟨evs, ht, -⟩ := rxFrame_traffic (state?_aborted ha)
  exact ⟨evs, ht⟩

theorem txSend_aborted_traffic {d h : Byte} {c : Command} {data : Bytes} {s p : State}
    (ha : txSend d h c data s = .aborted p) : ∃ evs, Traffic s p evs := by
  obtain ⟨k, -, ht⟩ := txSend_traffic (state?_aborted ha)
  exact ⟨_, ht⟩

theorem transact_aborted_traffic {d h : Byte} {c : Command} {data : Bytes} {s p : State}
    (ha : transact d h c data s = .aborted p) : ∃ evs, Traffic s p evs := by
  obtain ⟨k, evs, -, ht, -⟩ := transact_traffic (state?_aborted ha)
  exact ⟨_, ht⟩

/-! ### The bytes of an aborted ASSIGN -/

/-- R232: a receive aborted before its first byte takes none. -/
theorem rxFrame_reset {s : State} {ds : List RxDraw} (hs : s.rxDraws = .reset :: ds) :
    rxFrame s = .aborted (s.took [] ds) := by
  rw [rxFrame, rxByte_reset _ hs]
  rfl

/-- R232: a receive aborted right after the last byte of a one-byte reply has taken all of it. -/
theorem rxFrame_reset_after_reply {d h b : Byte} {c : Command} {s : State} {ds : List RxDraw}
    (hs : s.rxDraws = ((encodeFrame d h c [b]).dropLast).map .byte ++
      (((encodeFrame d h c [b]).drop 7).map .byteReset ++ ds)) :
    rxFrame s = .aborted (s.took (encodeFrame d h c [b]) ds) := by
  have hreads : Reads rxFrame (encodeFrame d h c [b]) :=
    rxFrame_reads (data := [b]) rfl d h (Command.msb c) (Command.lsb c) _
  exact hreads.aborted_of_byteReset (i := 7) (by simp [encodeFrame_length]) hs

/-- Settles O18: each operation hands on what aborts its port procedure, and no port procedure answers or forgets a
call. -/
theorem resetAbortsTheOperation : Obligations.ResetAbortsTheOperation := by
  refine ⟨fun s ins it hin => ⟨_, step_aborted hin, ⟨rfl, rfl⟩, rfl, rfl⟩, fun i s p hr => ⟨?_, ?_, ?_⟩, ?_⟩
  · exact fun hi ho ha => abortsIn_of_traffic hi rfl (rxFrame_aborted_traffic ha) (recv_of_aborted hr ho ha)
  · exact fun id d hi hid ho hf hd ha =>
      abortsIn_of_traffic hi rfl (transact_aborted_traffic ha) (reghost_of_aborted hid ho hf hd ha)
  · refine fun d h ho hd hh => ⟨fun c data hi hl hc hf ha => ?_, fun hi hf ha => ?_, fun hi hf ha => ?_, ?_⟩
    · have hc : isControl c = false := by simpa using mt (isControl_iff c).1 hc
      exact abortsIn_of_traffic hi rfl (txSend_aborted_traffic ha) (send_of_aborted ho hd hh hf hl hc ha)
    · exact abortsIn_of_traffic hi rfl (transact_aborted_traffic ha) (assign_of_aborted ho hd hh hf ha)
    · exact abortsIn_of_traffic hi rfl (transact_aborted_traffic ha) (mstatus_of_aborted ho hd hh hf ha)
    · rintro (hi | hi) hf ha
      · exact abortsIn_of_traffic hi rfl (transact_aborted_traffic ha) (release_of_aborted ho hd hh hf ha)
      · exact abortsIn_of_traffic hi rfl (transact_aborted_traffic ha) (disconnect_of_aborted ho hd hh hf ha)
  · intro s d h ts ds f hf ho hd hh
    have habort {p : State} (ha : transact d h Config.masterSet [Config.assignByte] s = .aborted p) :=
      assign_of_aborted ho hd hh hf ha
    refine ⟨fun k hk hts => ?_, fun hts hds => ?_, fun rd rh rc b hts hds => ?_⟩
    · exact ⟨_, habort (transact_of_txSend_aborted (txSend_reset hk hts)), ⟨rfl, rfl⟩, rfl, record_tx_txStream s f k⟩
    · exact ⟨_, habort (transact_of_rxFrame_aborted (txSend_accepted hts) (rxFrame_reset hds)), ⟨rfl, rfl⟩,
        List.append_nil _, rfl⟩
    · exact ⟨_, habort (transact_of_rxFrame_aborted (txSend_accepted hts) (rxFrame_reset_after_reply hds)), ⟨rfl, rfl⟩,
        List.append_assoc _ _ _, rfl⟩

end Sys2Proof.Machine

/-! PROOFS. Runs (R242): under R29's invariant, with the port contracts kept, every step gives a next state that meets
the same conditions. -/

namespace Sys2Proof.Machine

/-! ### Operations that go on -/

/-- The result is a next state whose port calls still return. -/
def Continues (r : Result) : Prop := ∃ t, r = .next t ∧ ChannelReturns t

/-- A next state with the draws of one whose calls return. -/
theorem ChannelReturns.continues {s t : State} (h : ChannelReturns s) (hrx : t.rxDraws = s.rxDraws)
    (htx : t.txDraws = s.txDraws) : Continues (.next t) := ⟨t, rfl, h.of_eq hrx htx⟩

theorem continues_whenLegal {legal : Fsm → Bool} {s : State} {k : Result} (hr : s.fsm ≠ .registering)
    (hc : ChannelReturns s) (hk : s.out = false → legal s.fsm = true → Continues k) :
    Continues (whenLegal legal s k) := by
  cases ho : s.out with
  | true =>
    rw [whenLegal_busy _ hr ho]
    exact hc.continues rfl rfl
  | false =>
    cases hl : legal s.fsm with
    | true =>
      rw [whenLegal_go hr ho hl]
      exact hk ho hl
    | false =>
      rw [whenLegal_fsmState hr ho hl]
      exact hc.continues rfl rfl

/-- R29: in a session both addresses are held. -/
theorem continues_withAddresses {s : State} {k : Byte → Byte → Result} (hs : SessionInv s)
    (hf : s.fsm = .registered ∨ s.fsm = .master) (hk : ∀ d h, Continues (k d h)) : Continues (withAddresses s k) := by
  obtain ⟨d, hd⟩ := Option.isSome_iff_exists.1 (hs.dev_in_session hf)
  obtain ⟨h, hh⟩ := Option.isSome_iff_exists.1 (hs.host_iff_session.2 hf)
  rw [withAddresses_some hd hh]
  exact hk d h

/-- R232, R242: port traffic that returns ends in a value, an error or an abort, and the later calls return too. -/
theorem Port.Returns.continues {α : Type} {p : Port α} {f : Err → State → Result} {k : α → State → Result}
    (hp : p.Returns) (hf : ∀ e s, ChannelReturns s → Continues (f e s))
    (hk : ∀ a s, ChannelReturns s → Continues (k a s)) : Continues (p.conclude f k) := by
  obtain ⟨hstuck, hstate⟩ := hp
  cases p with
  | ok a s => exact hk a s (hstate s rfl)
  | raised e s => exact hf e s (hstate s rfl)
  | aborted s => exact (hstate s rfl).continues rfl rfl
  | stuck => exact absurd rfl hstuck

section
variable {s : State} (hs : SessionInv s) (hc : ChannelReturns s)
include hs hc

theorem config_continues (d : Byte) : Continues (config d s) :=
  continues_whenLegal hs.not_registering hc fun _ _ => hc.continues rfl rfl

theorem reghost_continues (p : Params) {id : Bytes} (hid : dataFits id = true) : Continues (reghost p id s) := by
  rw [reghost, withinLane_fits ((dataFits_iff id).1 hid)]
  refine continues_whenLegal hs.not_registering hc fun _ _ => ?_
  split
  · exact hc.continues rfl rfl
  · obtain ⟨d, hd⟩ : ∃ d, s.dev = some d := Option.ne_none_iff_exists'.1 (by simpa using ‹¬s.dev.isNone = true›)
    rw [withDev, hd]
    exact Port.Returns.continues (controlReply_returns d _ _ _ (hc.of_eq rfl rfl)) (fun _ _ h => h.continues rfl rfl)
      (fun _ _ h => h.continues rfl rfl)

theorem assign_continues : Continues (assign s) :=
  continues_whenLegal hs.not_registering hc fun _ hl => continues_withAddresses hs (.inl (by simpa using hl)) fun d h =>
    (masterSet_returns d h _ hc).continues (fun _ _ h => h.continues rfl rfl) (fun _ _ h => h.continues rfl rfl)

theorem mstatus_continues (p : Params) : Continues (mstatus p s) :=
  continues_whenLegal hs.not_registering hc fun _ hl => continues_withAddresses hs ((connected_iff _).1 hl) fun d h =>
    (controlReply_returns d h _ _ hc).continues (fun _ _ h => h.continues rfl rfl) (fun _ _ h => h.continues rfl rfl)

theorem release_continues : Continues (release s) :=
  continues_whenLegal hs.not_registering hc fun _ hl => continues_withAddresses hs (.inr (by simpa using hl)) fun d h =>
    (masterSet_returns d h _ hc).continues (fun _ _ h => h.continues rfl rfl) (fun _ _ h => h.continues rfl rfl)

theorem disconnect_continues : Continues (disconnect s) := by
  refine continues_whenLegal hs.not_registering hc fun _ _ => ?_
  split
  · exact continues_withAddresses hs (.inr ‹_›) fun d h =>
      (masterSet_returns d h _ hc).continues (fun _ _ h => h.continues rfl rfl) (fun _ _ h => h.continues rfl rfl)
  · exact hc.continues rfl rfl

theorem send_continues (c : Command) {data : Bytes} (hl : dataFits data = true) : Continues (send c data s) := by
  rw [send, withinLane_fits ((dataFits_iff data).1 hl)]
  refine continues_whenLegal hs.not_registering hc fun _ hf => ?_
  split
  · exact hc.continues rfl rfl
  · exact continues_withAddresses hs ((connected_iff _).1 hf) fun d h =>
      (txSend_returns d h _ _ hc).continues (fun _ _ h => h.continues rfl rfl) (fun _ _ h => h.continues rfl rfl)

theorem recv_continues : Continues (recv s) := by
  rw [recv, atRest_of_ne hs.not_registering]
  split
  · exact Port.Returns.continues (rxFrame_returns (hc.of_eq rfl rfl)) (fun _ _ h => h.continues rfl rfl)
      (fun _ _ h => h.continues rfl rfl)
  · exact hc.continues rfl rfl

theorem check_continues (p : Params) : Continues (check p s) := by
  rw [check, atRest_of_ne hs.not_registering]
  split
  · exact hc.continues rfl rfl
  · split <;> exact hc.continues rfl rfl

/-- R29, R242: no well-formed instruction stops where the invariant holds and the channel returns. -/
theorem exec_continues {i : Instr} (hi : i.wf = true) : Continues (exec i s) := by
  rw [exec_operation]
  have hi := operation_wf hi
  cases i with
  | config d => exact config_continues hs hc d
  | reghost id | wireRegHost id => exact reghost_continues hs hc _ hi
  | assign | wireMasterSetAssign => exact assign_continues hs hc
  | mstatus | wireMasterGet => exact mstatus_continues hs hc _
  | release | wireMasterSetRelease => exact release_continues hs hc
  | send c data | wireDeviceGet c data | wireDeviceSet c data => exact send_continues hs hc c hi
  | recv => exact recv_continues hs hc
  | check => exact check_continues hs hc _
  | disconnect => exact disconnect_continues hs hc

end

/-! ### Steps that go on -/

/-- R80: an item that can be delivered is an instruction or is answered `ILLEGAL`. -/
theorem decode_ne_laneMismatch {it : Item} (h : Item.deliverable it = true) : decode it ≠ .error .laneMismatch := by
  cases it with
  | request w lane =>
    have hlane : laneExact w lane = true := h
    rw [decode, decodeRequest]
    split
    · rename_i e he
      exact fun heq => illegalWord_ne_laneMismatch w (Except.error.inj heq ▸ he)
    · rw [if_pos hlane]
      split <;> simp
  | frameCommand c data =>
    rw [decode, decodeFrameCommand]
    split_ifs <;> simp

/-- What a run needs of its state: R29's invariant, R80's port contract, and R242's proviso. -/
structure RunInv (s : State) : Prop where
  session : SessionInv s
  port : PortContract s
  channel : ChannelReturns s

theorem RunInv.step_continues {s : State} (h : RunInv s) : Continues (step s) := by
  obtain ⟨hs, hp, hc⟩ := h
  rcases hin : s.inputs with _ | ⟨it | _ | it, ins⟩
  · rw [step_idle hin]
    exact hc.continues rfl rfl
  · have hs' : SessionInv { s with inputs := ins } := .of_registers (s := s) rfl hs
    have hc' : ChannelReturns { s with inputs := ins } := hc.of_eq rfl rfl
    cases hd : decode it with
    | ok i =>
      rw [step_run hin hd]
      exact exec_continues hs' hc' (encode_of_decode hd).1
    | error e =>
      have hit : Item.deliverable it = true := hp it (by simp [hin])
      rw [step_of_decode_error hin hd fun he => decode_ne_laneMismatch hit (he ▸ hd), illegalRequest,
        atRest_of_ne hs'.not_registering]
      exact hc.continues rfl rfl
  · rw [step_reset hin]
    exact hc.continues rfl rfl
  · rw [step_aborted hin]
    exact hc.continues rfl rfl

/-- A step takes at most the head of the client's list. -/
theorem step_inputs_suffix {s t : State} (h : step s = .next t) : t.inputs <:+ s.inputs := by
  obtain ⟨-, rfl⟩ | ⟨ins, hin, rfl⟩ | ⟨it, ins, i, hin, -, h⟩ | ⟨it, ins, e, hin, -, -, -, rfl⟩ := step_next h
  · exact List.suffix_refl _
  · obtain hin | ⟨it, hin⟩ := hin <;> rw [hin] <;> exact List.suffix_cons _ _
  · rw [(exec_went h).inputs, hin]
    exact List.suffix_cons _ _
  · rw [hin]
    exact List.suffix_cons _ _

theorem PortContract.of_step {s t : State} (hp : PortContract s) (h : step s = .next t) : PortContract t :=
  fun it hit => hp it ((step_inputs_suffix h).subset hit)

theorem RunInv.next {s : State} (h : RunInv s) : ∃ t, step s = .next t ∧ RunInv t := by
  obtain ⟨t, ht, hc⟩ := h.step_continues
  exact ⟨t, ht, everyStepKeepsTheSessionInvariant s t h.session ht, h.port.of_step ht, hc⟩

theorem run_succ {M : Host.Core} {k : Nat} {s t : M.State} (h : M.step s = .next t) : M.run (k + 1) s = M.run k t := by
  rw [Host.Core.run, h]

theorem SafeRun.succ {s t : State} {k : Nat} (h : step s = .next t) : SafeRun t k → SafeRun s (k + 1) :=
  fun ⟨u, hu⟩ => ⟨u, (run_succ h).trans hu⟩

theorem RunInv.safeRun {s : State} (h : RunInv s) (k : Nat) : SafeRun s k := by
  induction k generalizing s with
  | zero => exact ⟨s, rfl⟩
  | succ k ih =>
    obtain ⟨t, ht, hinv⟩ := h.next
    exact .succ ht (ih hinv)

/-- Settles O47, by induction on the length of the run: each step goes on, and its next state meets the three conditions
again. -/
theorem runsNeverStop : Obligations.RunsNeverStop := fun _ hs hp hc k => RunInv.safeRun ⟨hs, hp, hc⟩ k

end Sys2Proof.Machine
